-- ==== Sys2Proof/Word.lean ====
section
/-! DEFINITION. The byte and the register index: the only word types of this hardware (00_scope.md R9, R11). -/

namespace Sys2Proof

/-- An unsigned 8-bit value: a memory cell, a general register, an opcode or an operand (00_scope.md R11). -/
abbrev Byte := BitVec 8

/-- A general register's index, 0 to 7 (10_state.md R19). -/
abbrev RegIdx := Fin 8

end Sys2Proof
end

