-- ==== Sys2Proof/Syntax.lean ====
section
/-! DEFINITION. The thirteen instructions (30_encoding.md R63), with their operand bytes as fetched. -/

namespace Sys2Proof

/-- An instruction of 30_encoding.md R63. An operand is one whole byte (R60): a register operand above 7 is a
term of this type too, because the machine fetches and dispatches it and then raises RegisterIndexError (R62). -/
inductive Instr where
  /-- `HLT` (R87). -/
  | hlt
  /-- `LDI`: register `a`, immediate `b` (R88). -/
  | ldi (a b : Byte)
  /-- `PRN`: register `a` (R89). -/
  | prn (a : Byte)
  /-- `ADD`: registers `a` (destination and first source) and `b` (R84). -/
  | add (a b : Byte)
  /-- `MUL`: registers `a` (destination and first source) and `b` (R85). -/
  | mul (a b : Byte)
  /-- `PUSH`: register `a` (R94). -/
  | push (a : Byte)
  /-- `POP`: register `a` (R95). -/
  | pop (a : Byte)
  /-- `CALL`: register `a`, which holds the target address (R100). -/
  | call (a : Byte)
  /-- `RET` (R101). -/
  | ret
  /-- `CMP`: registers `a` and `b` (R86). -/
  | cmp (a b : Byte)
  /-- `JMP`: register `a`, which holds the target address (R103). -/
  | jmp (a : Byte)
  /-- `JEQ`: register `a`, which holds the target address (R104). -/
  | jeq (a : Byte)
  /-- `JNE`: register `a`, which holds the target address (R105). -/
  | jne (a : Byte)
  deriving DecidableEq, Repr

end Sys2Proof
end

