-- ==== Sys2Proof/Decode.lean ====
section
/-! DEFINITION. The decoder, in the two steps the spec keeps apart (30_encoding.md R66): the operand count from the
opcode's top two bits, then the lookup of the whole opcode in the table. The encoder follows, from the same table. -/

namespace Sys2Proof

/-! The opcode bytes of 30_encoding.md R63. -/

def Opcode.hlt  : Byte := 0b00000001
def Opcode.ldi  : Byte := 0b10000010
def Opcode.prn  : Byte := 0b01000111
def Opcode.add  : Byte := 0b10100000
def Opcode.mul  : Byte := 0b10100010
def Opcode.push : Byte := 0b01000101
def Opcode.pop  : Byte := 0b01000110
def Opcode.call : Byte := 0b01010000
def Opcode.ret  : Byte := 0b00010001
def Opcode.cmp  : Byte := 0b10100111
def Opcode.jmp  : Byte := 0b01010100
def Opcode.jeq  : Byte := 0b01010101
def Opcode.jne  : Byte := 0b01010110

/-- The number of operand bytes: the opcode's bits 7:6, for every opcode byte, valid or not (30_encoding.md R57);
3 for class 11 (R58, log 6). -/
def operandCount (opcode : Byte) : Nat := (opcode.extractLsb 7 6).toNat

/-- The mnemonics of 30_encoding.md R63: what the table lookup gives, before the operands are joined. -/
inductive Mnemonic where
  | hlt | ldi | prn | add | mul | push | pop | call | ret | cmp | jmp | jeq | jne
  deriving DecidableEq, Repr

/-- The instruction table, opcode byte to mnemonic (30_encoding.md R63). -/
def opcodeTable : List (Byte × Mnemonic) :=
  [ (Opcode.hlt, .hlt), (Opcode.ldi, .ldi), (Opcode.prn, .prn), (Opcode.add, .add), (Opcode.mul, .mul),
    (Opcode.push, .push), (Opcode.pop, .pop), (Opcode.call, .call), (Opcode.ret, .ret), (Opcode.cmp, .cmp),
    (Opcode.jmp, .jmp), (Opcode.jeq, .jeq), (Opcode.jne, .jne) ]

/-- The dispatcher's match: the whole opcode byte against the table (40_cycle.md R72); bits 5:0 have no meaning of
their own (30_encoding.md R59). -/
def lookupOpcode (opcode : Byte) : Option Mnemonic := opcodeTable.lookup opcode

/-- The instruction a mnemonic and its operand_a and operand_b make (30_encoding.md R61). -/
def Mnemonic.withOperands (a b : Byte) : Mnemonic → Instr
  | .hlt => .hlt
  | .ldi => .ldi a b
  | .prn => .prn a
  | .add => .add a b
  | .mul => .mul a b
  | .push => .push a
  | .pop => .pop a
  | .call => .call a
  | .ret => .ret
  | .cmp => .cmp a b
  | .jmp => .jmp a
  | .jeq => .jeq a
  | .jne => .jne a

/-- Why bytes are no instruction. -/
inductive DecodeReject where
  /-- There is no opcode byte. -/
  | noOpcode
  /-- Fewer operand bytes follow than the opcode's top two bits ask for. -/
  | missingOperands (opcode : Byte)
  /-- The opcode byte is not in the table (30_encoding.md R64). -/
  | unknownOpcode (opcode : Byte)
  deriving DecidableEq, Repr

/-- The instruction at the head of a byte sequence, with the bytes after it. The operand bytes are asked for before
the table is (40_cycle.md R71, R72). -/
def decode : List Byte → Except DecodeReject (Instr × List Byte)
  | [] => .error .noOpcode
  | opcode :: rest =>
    if rest.length < operandCount opcode then .error (.missingOperands opcode)
    else
      match lookupOpcode opcode with
      | none => .error (.unknownOpcode opcode)
      | some m => .ok (m.withOperands (rest.getD 0 0) (rest.getD 1 0), rest.drop (operandCount opcode))

/-- The bytes of an instruction, lowest address first (30_encoding.md R56, R63). -/
def encode : Instr → List Byte
  | .hlt => [Opcode.hlt]
  | .ldi a b => [Opcode.ldi, a, b]
  | .prn a => [Opcode.prn, a]
  | .add a b => [Opcode.add, a, b]
  | .mul a b => [Opcode.mul, a, b]
  | .push a => [Opcode.push, a]
  | .pop a => [Opcode.pop, a]
  | .call a => [Opcode.call, a]
  | .ret => [Opcode.ret]
  | .cmp a b => [Opcode.cmp, a, b]
  | .jmp a => [Opcode.jmp, a]
  | .jeq a => [Opcode.jeq, a]
  | .jne a => [Opcode.jne, a]

/-- The bytes an opcode-table word stands for: bits 7:0 are the byte at the lowest address, and every bit from
`nbits` up is 0. Four bytes, the most the hardware fetches for one opcode (30_encoding.md R66). -/
def tableBytes (nbits w : Nat) : List Byte :=
  let v := w % 2 ^ nbits
  [BitVec.ofNat 8 v, BitVec.ofNat 8 (v / 256), BitVec.ofNat 8 (v / 65536), BitVec.ofNat 8 (v / 16777216)]

/-- What the decoder reads from an opcode-table word (log 19). -/
def decodeTableWord (nbits w : Nat) : Option Instr :=
  match decode (tableBytes nbits w) with
  | .ok (i, _) => some i
  | .error _ => none

end Sys2Proof
end

