-- ==== Sys2Proof/Config.lean ====
section
/-! DEFINITION. The parameters of the hardware (00_scope.md R9). The spec leaves no value free, so none here is opaque. -/

namespace Sys2Proof.Config

/-- `MEM_SIZE` by default (R9, R10). Another machine of the family has another size: see `State.resetWith` (log 2). -/
def memSize : Nat := 256

/-- The largest `MEM_SIZE` the spec admits (R10). -/
def maxMemSize : Nat := 256

/-- `SP_INDEX`: the register PUSH, POP, CALL and RET use as the stack pointer (R9, 10_state.md R20). -/
def spIndex : RegIdx := 7

/-- `SP_INIT`: the stack pointer's reset value and the underflow sentinel (R9, 43_stack.md R91). -/
def spInit : Byte := 0xF4

/-- What a memory cell holds after reset (10_state.md R37): what an address with no entry reads as. -/
def blankByte : Byte := 0

/-- The address of the first instruction after reset (10_state.md R37, 70_reset_and_hazards.md R123). -/
def entryPc : Nat := 0

end Sys2Proof.Config
end

