-- ==== Sys2Proof/Machine/State.lean ====
section
/-! DEFINITION. The machine's state (10_state.md §1), the reasons a step can stop, and the state after reset (R37). -/

namespace Sys2Proof.Machine

/-- The memory (20_memory.md R38): its size `MEM_SIZE`, fixed when the machine is made (00_scope.md R10, log 2), and
its cells as a sparse list. An address with no entry reads as `Config.blankByte` (log 1). -/
structure Memory where
  size : Nat
  cells : List Host.Cell
  deriving DecidableEq, Repr

/-- The canonical form of a memory: addresses strictly rising and in range, no entry that reads as an unlisted
address does. Two memories in this form with the same size and the same bytes are equal data. -/
abbrev Memory.wf (m : Memory) : Prop :=
  m.cells.Pairwise (fun c d => c.1 < d.1) ∧ ∀ c ∈ m.cells, c.1 < m.size ∧ c.2 ≠ Config.blankByte

/-- The flags (10_state.md R24, R26). -/
structure Flags where
  /-- Equal. -/
  e : Bool
  /-- Less-Than. -/
  l : Bool
  /-- Greater-Than. -/
  g : Bool
  deriving DecidableEq, Repr

/-- A fault's kind with the record fields of 60_exceptions.md R106 other than `pc` (log 15). -/
inductive FaultCause where
  /-- Code 1, MemoryBoundsError: an address outside [0, N), or a return address above 0xFF. -/
  | memoryBounds (address : Nat)
  /-- Code 2, DecodeError: the opcode byte is not one of the thirteen. -/
  | decode (opcode : Byte)
  /-- Code 3, RegisterIndexError: a register operand byte above 7. -/
  | registerIndex (index opcode : Byte)
  /-- Code 4, StackUnderflow. -/
  | stackUnderflow (sp opcode : Byte)
  /-- Code 5, StackOverflow. -/
  | stackOverflow (sp opcode : Byte)
  /-- Code 6, AluUnsupportedOperationError: never reached (40_cycle.md R81). -/
  | aluUnsupported
  deriving DecidableEq, Repr

/-- A fault record: the address of the faulting cycle's opcode, and the cause (10_state.md R31, 60_exceptions.md R107). -/
structure FaultRecord where
  pc : Nat
  cause : FaultCause
  deriving DecidableEq, Repr

/-- The run status (10_state.md R30). -/
inductive Status where
  | running
  | halted
  | faulted (record : FaultRecord)
  deriving DecidableEq, Repr

/-- Everything the spec gives the machine (10_state.md §1). The instruction register is ephemeral and is a local of
the step (R33). -/
structure State where
  /-- `x[0]` to `x[7]` (R19). -/
  regs : Vector Byte 8
  /-- E, L and G (R24). -/
  flags : Flags
  /-- The program counter, a natural number that never wraps (R27, log 5). -/
  pc : Nat
  /-- `MEM` (20_memory.md R38). -/
  mem : Memory
  /-- Running, Halted or Faulted (R30). -/
  status : Status
  /-- `OUT`, oldest byte first (R32). -/
  out : List Byte
  deriving DecidableEq, Repr

/-- Why `step` answers no next state: the machine is no longer Running, so it has no step (40_cycle.md R69). A fault
an instruction raises is NOT one of these when it is raised: it is a next state with status Faulted (log 3). -/
inductive Fault where
  /-- Answered by `step` in a Halted machine (R69, R126: a normal end, not an error). Safe: the machine has no step
  there, so no claim about a next state can follow from it (log 4). -/
  | halted
  /-- Answered by `step` in a Faulted machine, with its record (60_exceptions.md R111: Faulted is a fault outcome and
  never a successful end). Safe for the same reason (log 3). -/
  | faulted (record : FaultRecord)
  deriving DecidableEq, Repr

/-- Refusals. Every instruction has its meaning, so no step answers one. -/
inductive Refusal where
  /-- An instruction that `exec` gives no meaning yet; none is left. Safe: the step stops. -/
  | notModelled (mnemonic : String)
  deriving DecidableEq, Repr

/-- The general registers after reset: 0, and `SP_INIT` in the stack pointer (10_state.md R37). -/
def resetRegs : Vector Byte 8 := #v[0, 0, 0, 0, 0, 0, 0, Config.spInit]

/-- A machine with `n` bytes of memory right after reset (10_state.md R37, 00_scope.md R10). -/
def State.resetWith (n : Nat) : State where
  regs := resetRegs
  flags := ⟨false, false, false⟩
  pc := Config.entryPc
  mem := ⟨n, []⟩
  status := .running
  out := []

/-- The machine right after reset, with the default memory size (10_state.md R37). -/
def State.reset : State := State.resetWith Config.memSize

end Sys2Proof.Machine
end

