-- ==== Sys2Proof/Machine/Ops.lean ====
section
/-! DEFINITION. The shared operations over memory, registers, pc and output, and taking a fault. -/

namespace Sys2Proof.Machine

/-- What `exec` and `step` answer. -/
abbrev Result := Host.Outcome State Fault Refusal

/-! ### Memory (20_memory.md R40, R41) -/

/-- The byte a cell list gives an address. -/
def lookupCell (a : Nat) : List Host.Cell → Byte
  | [] => Config.blankByte
  | (k, v) :: rest => if a = k then v else lookupCell a rest

/-- The cell list with a byte put at an address, in canonical form. -/
def insertCell (a : Nat) (v : Byte) : List Host.Cell → List Host.Cell
  | [] => if v = Config.blankByte then [] else [(a, v)]
  | (k, w) :: rest =>
    if a < k then (if v = Config.blankByte then (k, w) :: rest else (a, v) :: (k, w) :: rest)
    else if a = k then (if v = Config.blankByte then rest else (a, v) :: rest)
    else (k, w) :: insertCell a v rest

/-- The bounds check of both ports: no wrap, a fault (R42). -/
def Memory.checkBounds (m : Memory) (a : Nat) : Except FaultCause Unit :=
  if a < m.size then .ok () else .error (.memoryBounds a)

/-- The read port (R40). -/
def Memory.read (m : Memory) (a : Nat) : Except FaultCause Byte :=
  match m.checkBounds a with
  | .ok _ => .ok (lookupCell a m.cells)
  | .error c => .error c

/-- What the write port does to the cells once its bounds check has passed (R41). -/
def Memory.store (m : Memory) (a : Nat) (v : Byte) : Memory :=
  { m with cells := insertCell a v m.cells }

/-- The write port (R41). -/
def Memory.write (m : Memory) (a : Nat) (v : Byte) : Except FaultCause Memory :=
  match m.checkBounds a with
  | .ok _ => .ok (m.store a v)
  | .error c => .error c

/-- `n` single-byte reads at ascending addresses; the first address out of range is the one reported
(40_cycle.md R71). -/
def Memory.readSeq (m : Memory) (a : Nat) : Nat → Except FaultCause (List Byte)
  | 0 => .ok []
  | n + 1 =>
    match m.read a with
    | .error c => .error c
    | .ok v =>
      match m.readSeq (a + 1) n with
      | .error c => .error c
      | .ok vs => .ok (v :: vs)

/-! ### Registers, program counter, output -/

/-- `x[r]` (00_scope.md R13). -/
def State.reg (s : State) (r : RegIdx) : Byte := s.regs[r]

/-- `x[r] <- v` (00_scope.md R13). -/
def State.setReg (s : State) (r : RegIdx) (v : Byte) : State := { s with regs := s.regs.set r v }

/-- `SP`, that is `x[7]` (10_state.md R20). -/
def State.sp (s : State) : Byte := s.reg Config.spIndex

/-- `SP <- v`. -/
def State.setSp (s : State) (v : Byte) : State := s.setReg Config.spIndex v

/-- `pc <- t`. -/
def State.setPc (s : State) (t : Nat) : State := { s with pc := t }

/-- The sequential advance of an instruction with `count` operand bytes (40_cycle.md R74). The effects before it leave
pc at the opcode's address (R75). -/
def State.advance (s : State) (count : Nat) : State := s.setPc (s.pc + 1 + count)

/-- `Emit(v)`: append to the output stream (10_state.md R32). -/
def State.emit (s : State) (v : Byte) : State := { s with out := s.out ++ [v] }

/-- The effect of the write port on the state. -/
def State.store (s : State) (a : Nat) (v : Byte) : State := { s with mem := s.mem.store a v }

/-- `status <- Halted` (42_data_and_system.md R87). -/
def State.halt (s : State) : State := { s with status := .halted }

/-! ### Taking a fault -/

/-- Taking a fault: status becomes Faulted with a record whose pc is the faulting opcode's address, and nothing else
changes (40_cycle.md R76, 60_exceptions.md R107, R110; log 7). There is no return from it (R111). -/
def State.raise (s : State) (cause : FaultCause) : State := { s with status := .faulted ⟨s.pc, cause⟩ }

/-- One check of an instruction (00_scope.md R16): go on with its value, or raise its fault from `s`, the state before
the instruction. -/
def State.check {α : Type} (s : State) (c : Except FaultCause α) (go : α → Result) : Result :=
  match c with
  | .ok x => go x
  | .error cause => .next (s.raise cause)

/-- The numeric label of a fault's kind (60_exceptions.md R106, log 15). No program can read it. -/
def FaultCause.code : FaultCause → Nat
  | .memoryBounds _ => 1
  | .decode _ => 2
  | .registerIndex _ _ => 3
  | .stackUnderflow _ _ => 4
  | .stackOverflow _ _ => 5
  | .aluUnsupported => 6

end Sys2Proof.Machine
end

