-- ==== Sys2Proof/Machine/Flags.lean ====
section
/-! DEFINITION. The flag computation: CMP's (41_alu.md R86). No other instruction writes a flag (10_state.md R24). -/

namespace Sys2Proof.Machine

/-- The flags after comparing `x` with `y` as unsigned bytes: one flag becomes 1 and the other two keep their values
(41_alu.md R86, 10_state.md R25, 90_conflicts.md C1). -/
def Flags.compare (f : Flags) (x y : Byte) : Flags :=
  if x = y then { f with e := true }
  else if x.toNat < y.toNat then { f with l := true }
  else { f with g := true }

/-- A byte view of the flags for tools: bit 0 E, bit 1 G, bit 2 L (10_state.md R26, log 20). No instruction uses it. -/
def Flags.byteView (f : Flags) : Byte :=
  BitVec.ofNat 8 (f.e.toNat + 2 * f.g.toNat + 4 * f.l.toNat)

end Sys2Proof.Machine
end

