-- ==== Sys2Proof/Machine/Operands.lean ====
section
/-! DEFINITION. The operand forms (30_encoding.md R60): a register index and an immediate. -/

namespace Sys2Proof.Machine

/-- A register operand: the whole byte, 0 to 7, or RegisterIndexError with the operand byte and the opcode
(10_state.md R22, 30_encoding.md R62, 60_exceptions.md R106). -/
def regOperand (opcode operand : Byte) : Except FaultCause RegIdx :=
  if h : operand.toNat < 8 then .ok ⟨operand.toNat, h⟩ else .error (.registerIndex operand opcode)

/-- An immediate operand: the byte itself, never checked (30_encoding.md R60, R65). -/
def immediate (operand : Byte) : Byte := operand

end Sys2Proof.Machine
end

