-- ==== Sys2Proof/Machine/Alu.lean ====
section
/-! DEFINITION. The ALU (41_alu.md R82, R83) and the instructions that use it: ADD, MUL, CMP. -/

namespace Sys2Proof.Machine

/-- The ALU's operations, exactly these three (R82). -/
inductive AluOp where
  | add | mul | cmp
  deriving DecidableEq, Repr

/-- The operation an opcode asks the ALU for; none where the ALU has no such operation (R82). -/
def aluSelect (opcode : Byte) : Option AluOp :=
  if opcode = Opcode.add then some .add
  else if opcode = Opcode.mul then some .mul
  else if opcode = Opcode.cmp then some .cmp
  else none

/-- The exact sum, kept to its low 8 bits (R83). -/
def aluAdd (x y : Byte) : Byte := BitVec.ofNat 8 ((x.toNat + y.toNat) % 256)

/-- The exact product, kept to its low 8 bits (R83). -/
def aluMul (x y : Byte) : Byte := BitVec.ofNat 8 ((x.toNat * y.toNat) % 256)

/-- What an ALU operation writes: `x[a]`, or the flags (R82). -/
def aluApply (op : AluOp) (a b : RegIdx) (s : State) : State :=
  match op with
  | .add => s.setReg a (aluAdd (s.reg a) (s.reg b))
  | .mul => s.setReg a (aluMul (s.reg a) (s.reg b))
  | .cmp => { s with flags := s.flags.compare (s.reg a) (s.reg b) }

/-- The ALU's answer: its operation, or its unsupported-operation error (R82), which cannot be reached from the
dispatcher (40_cycle.md R81, log 21). -/
def aluRequest (opcode : Byte) : Except FaultCause AluOp :=
  match aluSelect opcode with
  | some op => .ok op
  | none => .error .aluUnsupported

/-- An instruction that hands two registers to the ALU: the register checks, the operation, the sequential advance. -/
def execAlu (opcode a b : Byte) (s : State) : Result :=
  s.check (regOperand opcode a) fun ra =>
  s.check (regOperand opcode b) fun rb =>
  s.check (aluRequest opcode) fun op =>
  .next ((aluApply op ra rb s).advance 2)

/-- `ADD` (R84). -/
def execAdd (a b : Byte) (s : State) : Result := execAlu Opcode.add a b s

/-- `MUL` (R85). -/
def execMul (a b : Byte) (s : State) : Result := execAlu Opcode.mul a b s

/-- `CMP` (R86). -/
def execCmp (a b : Byte) (s : State) : Result := execAlu Opcode.cmp a b s

end Sys2Proof.Machine
end

