-- ==== Sys2Proof/Machine/Stack.lean ====
section
/-! DEFINITION. The stack discipline PUSH, POP, CALL and RET share (43_stack.md), and PUSH and POP. -/

namespace Sys2Proof.Machine

/-- The checks of a push, giving the decremented SP: StackOverflow at SP = 0, then the bounds of the address written
(43_stack.md R93). -/
def pushSlot (opcode : Byte) (s : State) : Except FaultCause Byte :=
  if s.sp = 0 then .error (.stackOverflow s.sp opcode)
  else
    match s.mem.checkBounds (s.sp - 1).toNat with
    | .ok _ => .ok (s.sp - 1)
    | .error c => .error c

/-- The checks of a pop up to its read, giving the byte at SP: StackUnderflow at the sentinel exactly, then the bounds
of the address read (43_stack.md R91, log 12). -/
def popByte (opcode : Byte) (s : State) : Except FaultCause Byte :=
  if s.sp = Config.spInit then .error (.stackUnderflow s.sp opcode) else s.mem.read s.sp.toNat

/-- The last check of a pop: the value its increment reads is not 0xFF (43_stack.md R92, log 11). The record names SP
as it was before the pop. -/
def checkIncrement (opcode : Byte) (s : State) (incremented : Byte) : Except FaultCause Unit :=
  if incremented = 0xFF then .error (.stackUnderflow s.sp opcode) else .ok ()

/-- `PUSH` (R94): SP is decremented first, and `x[a]` is read after that, so `PUSH R7` writes the decremented SP
(log 10). -/
def execPush (a : Byte) (s : State) : Result :=
  s.check (regOperand Opcode.push a) fun ra =>
  s.check (pushSlot Opcode.push s) fun slot =>
  let s₁ := s.setSp slot
  .next ((s₁.store slot.toNat (s₁.reg ra)).advance 1)

/-- `POP` (R95): `x[a]` is written first, and SP is incremented after that, so `POP R7` leaves the popped byte plus
one (log 10). -/
def execPop (a : Byte) (s : State) : Result :=
  s.check (regOperand Opcode.pop a) fun ra =>
  s.check (popByte Opcode.pop s) fun v =>
  s.check (checkIncrement Opcode.pop s (if ra = Config.spIndex then v else s.sp)) fun _ =>
  let s₁ := s.setReg ra v
  .next ((s₁.setSp (s₁.sp + 1)).advance 1)

end Sys2Proof.Machine
end

