-- ==== Sys2Proof/Machine/Control.lean ====
section
/-! DEFINITION. The control transfers CALL, RET, JMP, JEQ and JNE (44_control_transfer.md). They set pc themselves, and
no advance is added (40_cycle.md R74). A target is the whole register byte and is not checked here (R97, R98, log 14). -/

namespace Sys2Proof.Machine

/-- The return address of a CALL at `p`, which must fit a byte (R100, log 13). -/
def returnAddress (p : Nat) : Except FaultCause Byte :=
  if p + 2 ≤ 0xFF then .ok (BitVec.ofNat 8 (p + 2)) else .error (.memoryBounds (p + 2))

/-- `CALL` (R100): `x[a]` is read after SP is decremented, so `CALL R7` jumps to the new SP (log 10). -/
def execCall (a : Byte) (s : State) : Result :=
  s.check (regOperand Opcode.call a) fun ra =>
  s.check (pushSlot Opcode.call s) fun slot =>
  s.check (returnAddress s.pc) fun back =>
  let s₁ := s.setSp slot
  .next ((s₁.store slot.toNat back).setPc (s₁.reg ra).toNat)

/-- `RET` (R101). -/
def execRet (s : State) : Result :=
  s.check (popByte Opcode.ret s) fun v =>
  s.check (checkIncrement Opcode.ret s s.sp) fun _ =>
  .next ((s.setPc v.toNat).setSp (s.sp + 1))

/-- A jump through a register that is taken or not; the register operand is checked either way (R104, R105, log 9). -/
def execJump (opcode a : Byte) (taken : Bool) (s : State) : Result :=
  s.check (regOperand opcode a) fun ra =>
  .next (if taken then s.setPc (s.reg ra).toNat else s.advance 1)

/-- `JMP` (R103). -/
def execJmp (a : Byte) (s : State) : Result := execJump Opcode.jmp a true s

/-- `JEQ` (R104). -/
def execJeq (a : Byte) (s : State) : Result := execJump Opcode.jeq a s.flags.e s

/-- `JNE` (R105). -/
def execJne (a : Byte) (s : State) : Result := execJump Opcode.jne a (!s.flags.e) s

end Sys2Proof.Machine
end

