-- ==== Sys2Proof/Machine/System.lean ====
section
/-! DEFINITION. HLT, LDI and PRN (42_data_and_system.md). -/

namespace Sys2Proof.Machine

/-- `HLT` (R87): status Halted, and the sequential advance, since HLT is no control transfer (40_cycle.md R74). -/
def execHlt (s : State) : Result := .next (s.halt.advance 0)

/-- `LDI` (R88). -/
def execLdi (a b : Byte) (s : State) : Result :=
  s.check (regOperand Opcode.ldi a) fun ra =>
  .next ((s.setReg ra (immediate b)).advance 2)

/-- `PRN` (R89). -/
def execPrn (a : Byte) (s : State) : Result :=
  s.check (regOperand Opcode.prn a) fun ra =>
  .next ((s.emit (s.reg ra)).advance 1)

end Sys2Proof.Machine
end

