-- ==== Sys2Proof/Machine/Fetch.lean ====
section
/-! DEFINITION. Fetching an instruction's bytes (40_cycle.md R70, R71), and placing bytes in memory. -/

namespace Sys2Proof.Machine

/-- What one cycle fetches: the instruction register (10_state.md R33). -/
structure Fetched where
  opcode : Byte
  operands : List Byte
  deriving DecidableEq, Repr

/-- The opcode at pc, then as many operand bytes as its top two bits say, in ascending order, before any dispatch
(R70, R71). -/
def fetch (s : State) : Except FaultCause Fetched :=
  match s.mem.read s.pc with
  | .error c => .error c
  | .ok opcode =>
    match s.mem.readSeq (s.pc + 1) (operandCount opcode) with
    | .error c => .error c
    | .ok operands => .ok ⟨opcode, operands⟩

/-- Bytes put at ascending addresses from `a`; a byte whose address is out of range is left out. -/
def Memory.place (m : Memory) (a : Nat) : List Byte → Memory
  | [] => m
  | v :: vs => (if a < m.size then m.store a v else m).place (a + 1) vs

/-- The bytes of an opcode-table word that a fetch of it reads: the opcode and its operand bytes (log 19). -/
def fetchedTableBytes (nbits w : Nat) : List Byte :=
  (tableBytes nbits w).take (1 + operandCount (BitVec.ofNat 8 (w % 2 ^ nbits)))

end Sys2Proof.Machine
end

