-- ==== Sys2Proof/Machine/Step.lean ====
section
/-! DEFINITION. One step of the machine: one whole instruction cycle (40_cycle.md R78). -/

namespace Sys2Proof.Machine

/-- One cycle: no step unless Running (R69), then fetch (R70, R71), dispatch (R72) and execute (R73). A fault anywhere
in the cycle is taken by `State.raise` (R76). -/
def step (s : State) : Host.Outcome State Fault Refusal :=
  match s.status with
  | .halted => .fault .halted
  | .faulted record => .fault (.faulted record)
  | .running =>
    s.check (fetch s) fun ir =>
    match decode (ir.opcode :: ir.operands) with
    | .ok (i, _) => exec i s
    | .error _ => .next (s.raise (.decode ir.opcode))

/-- `s` with the instruction of an opcode-table word stored at pc, where the next step fetches, and Running, which a
fetch needs (log 19). -/
def State.withFetchWord (s : State) (nbits w : Nat) : State :=
  { s with mem := s.mem.place s.pc (fetchedTableBytes nbits w), status := .running }

end Sys2Proof.Machine
end

