-- ==== Sys2Proof/Machine/HostPort.lean ====
section
/-! DEFINITION. What the host does to the machine and reads from it (70_reset_and_hazards.md R125): the program load, the
run under fuel, and the text of the output. The text of a program file is outside the core (00_scope.md R6); it is
given here because 30_encoding.md R68 states it whole. -/

namespace Sys2Proof.Machine

/-- Why no run starts (70_reset_and_hazards.md R122). -/
inductive LoadError where
  /-- A line of the program text is not 8 binary digits (30_encoding.md R68). -/
  | malformedLine
  /-- The program has more bytes than the memory (R122, log 18). -/
  | tooLong
  deriving DecidableEq, Repr

/-- The loader: the program's bytes from address 0 of a machine that was just reset, or LoadError and no run (R122). -/
def load (program : List Byte) (s : State) : Except LoadError State :=
  if program.length ≤ s.mem.size then .ok { s with mem := s.mem.place 0 program } else .error .tooLong

/-- At most `fuel` cycles, until the machine has no step (R126). -/
def runFor : Nat → State → State
  | 0, s => s
  | fuel + 1, s =>
    match step s with
    | .next t => runFor fuel t
    | .fault _ => s
    | .refused _ => s

/-! ### The text of the output (42_data_and_system.md R89, log 17) -/

/-- One decimal digit. -/
def digitChar (d : Nat) : Char := Char.ofNat (48 + d)

/-- A byte as unsigned decimal, no sign and no leading zeros. -/
def renderByte (v : Byte) : List Char :=
  let n := v.toNat
  if n < 10 then [digitChar n]
  else if n < 100 then [digitChar (n / 10), digitChar (n % 10)]
  else [digitChar (n / 100), digitChar (n / 10 % 10), digitChar (n % 10)]

/-- The output stream as the host prints it: one line a byte. -/
def renderOut (out : List Byte) : List Char := out.flatMap fun v => renderByte v ++ ['\n']

/-! ### The text of a program file (30_encoding.md R68, log 23) -/

/-- The value of a line's binary digits, most significant first; none if a character is no binary digit. -/
def binaryValue (acc : Nat) : List Char → Option Nat
  | [] => some acc
  | c :: cs =>
    if c = '0' then binaryValue (2 * acc) cs
    else if c = '1' then binaryValue (2 * acc + 1) cs
    else none

/-- Whether a character around a line's content is removed. -/
def isBlankChar (c : Char) : Bool := c = ' ' || c = '\t' || c = '\r'

/-- A line's content: the comment removed, then leading and trailing blanks. -/
def lineContent (line : List Char) : List Char :=
  (((line.takeWhile (· ≠ '#')).dropWhile isBlankChar).reverse.dropWhile isBlankChar).reverse

/-- A line's byte, none for a line that is blank, or LoadError. -/
def parseLine (line : List Char) : Except LoadError (Option Byte) :=
  match lineContent line with
  | [] => .ok none
  | c :: cs =>
    if (c :: cs).length = 8 then
      match binaryValue 0 (c :: cs) with
      | some n => .ok (some (BitVec.ofNat 8 n))
      | none => .error .malformedLine
    else .error .malformedLine

/-- The lines of a text, each without its line feed. -/
def splitLines : List Char → List (List Char)
  | [] => [[]]
  | c :: cs =>
    if c = '\n' then [] :: splitLines cs
    else
      match splitLines cs with
      | [] => [[c]]
      | l :: ls => (c :: l) :: ls

/-- The bytes of lines in order, skipping blank ones. -/
def parseLines : List (List Char) → Except LoadError (List Byte)
  | [] => .ok []
  | l :: ls =>
    match parseLine l with
    | .error e => .error e
    | .ok b =>
      match parseLines ls with
      | .error e => .error e
      | .ok bs => .ok (b.toList ++ bs)

/-- The bytes of a program file. -/
def parseProgram (text : List Char) : Except LoadError (List Byte) := parseLines (splitLines text)

/-- The load of a program file: LoadError before anything is written, or the loaded machine (R122). -/
def loadText (text : List Char) (s : State) : Except LoadError State :=
  match parseProgram text with
  | .error e => .error e
  | .ok program => load program s

end Sys2Proof.Machine
end

