-- ==== Sys2Proof/Safety.lean ====
section
/-! DEFINITION. Runs, their ends, and the invariant of the machine. -/

namespace Sys2Proof.Machine

/-- `t` is reached from `s` by steps that answer next states. -/
inductive Reaches : State → State → Prop where
  | refl (s : State) : Reaches s s
  | tail {s t u : State} (before : Reaches s t) (last : step t = .next u) : Reaches s u

/-- A run's fault end (70_reset_and_hazards.md R126). -/
def State.isFaulted (s : State) : Prop := ∃ record, s.status = .faulted record

/-- A run from `s` ends normally (R126). A Faulted end is never one (60_exceptions.md R111). -/
def HaltsFrom (s : State) : Prop := ∃ t, Reaches s t ∧ t.status = .halted

/-- A run from `s` that never faults. Because a fault is a next state with status Faulted (log 3), this reads the
status; it does not read the outcome of the last step. -/
def SafeFrom (s : State) : Prop := ∀ t, Reaches s t → ¬ t.isFaulted

/-- The memory size is one the spec admits (00_scope.md R10). -/
def Memory.sizeOk (m : Memory) : Prop := 1 ≤ m.size ∧ m.size ≤ Config.maxMemSize

/-- The record of a Faulted machine names the pc the machine still holds (40_cycle.md R76), and never the ALU's
unsupported operation (R81). -/
def Status.recordOk (status : Status) (pc : Nat) : Prop :=
  ∀ record, status = .faulted record → record.pc = pc ∧ record.cause ≠ .aluUnsupported

/-- The machine's invariant: a memory of a legal size in canonical form, pc in its reachable range
(10_state.md R28), and a fault record that fits the machine. -/
structure Inv (s : State) : Prop where
  memory_wf : s.mem.wf
  memory_size : s.mem.sizeOk
  pc_range : s.pc ≤ max s.mem.size 255
  record_ok : s.status.recordOk s.pc

end Sys2Proof.Machine
end

