-- ==== Sys2Proof/WellFormed.lean ====
section
/-! DEFINITION. Which instructions are well-formed: every register operand is 0 to 7 (30_encoding.md R61, R62). -/

namespace Sys2Proof

/-- The bytes of an instruction that are register operands, operand_a first (30_encoding.md R61).
LDI's operand_b is an immediate and is not among them. -/
def Instr.regOperands : Instr → List Byte
  | .hlt => []
  | .ldi a _ => [a]
  | .prn a => [a]
  | .add a b => [a, b]
  | .mul a b => [a, b]
  | .push a => [a]
  | .pop a => [a]
  | .call a => [a]
  | .ret => []
  | .cmp a b => [a, b]
  | .jmp a => [a]
  | .jeq a => [a]
  | .jne a => [a]

/-- A register operand names a register exactly when the whole byte is at most 7 (10_state.md R22). -/
def namesRegister (operand : Byte) : Bool := decide (operand.toNat ≤ 7)

/-- A well-formed instruction: each register operand names a register. -/
def Instr.wellFormed (i : Instr) : Bool := i.regOperands.all namesRegister

end Sys2Proof
end

