-- ==== Sys2Proof/Certificates/Slice0/Obligations.lean ====
section
/-! DEFINITION. The statements for the provers: what the rules of spec/ say an instruction or the machine does.
Opcode bytes and addresses stand here as numbers, not under the model's names, so that a wrong table entry shows. -/

open Sys2Proof Sys2Proof.Machine

/-! ### Words the statements use -/

namespace Sys2Proof.Claim

/-- `s` after taking a fault: the status names the cause and `s`'s own pc, and nothing else differs (40_cycle.md R76,
the spec's decision D3, log 7; 60_exceptions.md R107). -/
def faulted (s : State) (cause : FaultCause) : State := { s with status := .faulted ⟨s.pc, cause⟩ }

/-- The instruction ends with status Faulted for a cause that `P` holds of. It says nothing of the rest of the state. -/
def Raises (o : Result) (P : FaultCause → Prop) : Prop :=
  ∃ t record, o = .next t ∧ t.status = .faulted record ∧ P record.cause

/-- RegisterIndexError for this operand byte, whatever else the record holds. -/
def IsIndexError (index : Byte) (cause : FaultCause) : Prop := ∃ opcode, cause = .registerIndex index opcode

/-- StackOverflow, whatever the record holds. -/
def IsOverflow (cause : FaultCause) : Prop := ∃ sp opcode, cause = .stackOverflow sp opcode

/-- The thirteen opcode bytes of 30_encoding.md R63, in the table's order. -/
def validOpcodes : List Byte :=
  [0x01, 0x82, 0x47, 0xA0, 0xA2, 0x45, 0x46, 0x50, 0x11, 0xA7, 0x54, 0x55, 0x56]

/-- The sequential instructions of 40_cycle.md R74. -/
def isSequential : Instr → Bool
  | .hlt | .ldi _ _ | .prn _ | .add _ _ | .mul _ _ | .push _ | .pop _ | .cmp _ _ => true
  | .call _ | .ret | .jmp _ | .jeq _ | .jne _ => false

/-- The instructions that use register 7 as SP without naming it (10_state.md R20). -/
def usesStack : Instr → Bool
  | .push _ | .pop _ | .call _ | .ret => true
  | .hlt | .ldi _ _ | .prn _ | .add _ _ | .mul _ _ | .cmp _ _ | .jmp _ | .jeq _ | .jne _ => false

/-- The register numbers an instruction may write (the "writes" column of 10_state.md R21). -/
def writtenRegs : Instr → List Nat
  | .ldi a _ | .add a _ | .mul a _ => [a.toNat]
  | .push _ | .call _ | .ret => [7]
  | .pop a => [a.toNat, 7]
  | .hlt | .prn _ | .cmp _ _ | .jmp _ | .jeq _ | .jne _ => []

/-- `s` with other values in L and G. -/
def withLG (s : State) (l g : Bool) : State := { s with flags := ⟨s.flags.e, l, g⟩ }

end Sys2Proof.Claim

open Sys2Proof.Claim

/-! ### Decoding and encoding (30_encoding.md) -/

/-- Decode and encode agree for every instruction and every operand byte (R56, R61, R63). -/
def Obligations.DecodeOfEncode : Prop :=
  ∀ (i : Instr) (rest : List Byte), decode (encode i ++ rest) = .ok (i, rest)

/-- Each decoded byte sequence starts with the encoding of what it decodes to, so no word has two meanings (R56, R63). -/
def Obligations.DecodedBytesAreTheEncoding : Prop :=
  ∀ (bytes rest : List Byte) (i : Instr), decode bytes = .ok (i, rest) → bytes = encode i ++ rest

/-- Words written out from the encodings of R63, one for each row, decode to the row's instruction. -/
def Obligations.TableWordsDecode : Prop :=
  decode [0b00000001] = .ok (.hlt, []) ∧
  decode [0b10000010, 0b00000101, 0b11001000] = .ok (.ldi 5 200, []) ∧
  decode [0b01000111, 0b00000011] = .ok (.prn 3, []) ∧
  decode [0b10100000, 0b00000001, 0b00000010] = .ok (.add 1 2, []) ∧
  decode [0b10100010, 0b00000001, 0b00000010] = .ok (.mul 1 2, []) ∧
  decode [0b01000101, 0b00000100] = .ok (.push 4, []) ∧
  decode [0b01000110, 0b00000100] = .ok (.pop 4, []) ∧
  decode [0b01010000, 0b00000110] = .ok (.call 6, []) ∧
  decode [0b00010001] = .ok (.ret, []) ∧
  decode [0b10100111, 0b00000001, 0b00000010] = .ok (.cmp 1 2, []) ∧
  decode [0b01010100, 0b00000110] = .ok (.jmp 6, []) ∧
  decode [0b01010101, 0b00000110] = .ok (.jeq 6, []) ∧
  decode [0b01010110, 0b00000110] = .ok (.jne 6, [])

/-- R64: the 243 opcode bytes outside the table, 0x00 and 0xC0 to 0xFF among them, raise DecodeError once their operand
bytes are fetched. The hypothesis asks that every byte the opcode's top two bits may ask for is in memory; it holds
under either reading of class 11's count. -/
def Obligations.UnknownOpcodeRaisesDecodeError : Prop :=
  (∀ (s : State) (opcode : Byte), opcode ∉ validOpcodes → s.status = .running →
    s.mem.read s.pc = .ok opcode → s.pc + opcode.toNat / 64 < s.mem.size →
    Raises (step s) (fun cause => cause = .decode opcode)) ∧
  ((List.range 256).filter (fun n => BitVec.ofNat 8 n ∉ validOpcodes)).length = 243 ∧
  (∀ opcode : Byte, opcode = 0 ∨ 0xC0 ≤ opcode.toNat → opcode ∉ validOpcodes)

/-- R57, R58, R71: a fetch reads the opcode and then as many bytes as its top two bits count, at ascending addresses.
That the count of class 11 is 3 is the spec's decision D2 (log 6). -/
def Obligations.FetchReadsCountedOperands : Prop :=
  ∀ (s : State) (opcode : Byte), s.mem.read s.pc = .ok opcode → s.pc + opcode.toNat / 64 < s.mem.size →
    ∃ ir : Fetched, fetch s = .ok ir ∧ ir.opcode = opcode ∧ ir.operands.length = opcode.toNat / 64 ∧
      ∀ k (h : k < ir.operands.length), s.mem.read (s.pc + 1 + k) = .ok ir.operands[k]

/-! ### The cycle (40_cycle.md) -/

/-- R71, R72, R73: where the bytes at pc decode to an instruction, a step of a Running machine is exec of it at that
state; exec itself moves pc (R74). -/
def Obligations.StepRunsTheDecodedInstruction : Prop :=
  ∀ (s : State) (i : Instr) (bytes rest : List Byte), s.status = .running → decode bytes = .ok (i, rest) →
    (∀ k (h : k < bytes.length), s.mem.read (s.pc + k) = .ok bytes[k]) → step s = exec i s

/-- R70, R107: a fetch at pc ≥ N raises MemoryBoundsError(pc), whatever put pc there (R98 and its decision D25, log 14).
That nothing else changes is the decision D3 (log 7). -/
def Obligations.FetchOutsideMemoryFaults : Prop :=
  ∀ s : State, s.status = .running → s.mem.size ≤ s.pc → step s = .next (faulted s (.memoryBounds s.pc))

/-- R71, R77: an operand byte outside memory raises MemoryBoundsError with its address, which is N, before the opcode
is looked up. The order is the decision D4 (log 8), and class 11's count is D2 (log 6). -/
def Obligations.OperandFetchOutsideMemoryFaults : Prop :=
  ∀ (s : State) (opcode : Byte), s.status = .running → s.mem.read s.pc = .ok opcode →
    s.mem.size ≤ s.pc + opcode.toNat / 64 → step s = .next (faulted s (.memoryBounds s.mem.size))

/-- R69: when status is Halted or Faulted the machine has no step. -/
def Obligations.NoStepUnlessRunning : Prop :=
  ∀ (s t : State), step s = .next t → s.status = .running

/-- A Running machine always has a step: no instruction and no fetch ends in a refusal or without a next state, since a
fault is itself a next state (93_implementation_defined.md I12; R76; the form is log 3). -/
def Obligations.RunningMachineSteps : Prop :=
  (∀ (i : Instr) (s : State), ∃ t, exec i s = .next t) ∧ (∀ s : State, s.status = .running → ∃ t, step s = .next t)

/-- R76, R107, R110: a cycle that raises a fault changes only the status, and its record's pc is the faulting opcode's
address. That nothing is committed is the decision D3 (log 7). -/
def Obligations.FaultedCycleChangesOnlyStatus : Prop :=
  ∀ (s t : State) (record : FaultRecord), step s = .next t → t.status = .faulted record →
    t = { s with status := .faulted record } ∧ record.pc = s.pc

/-- R74: a sequential instruction that does not fault leaves pc at p + 1 + count, and a control transfer sets pc itself
with no advance added. CALL with register 7 rests on D6 and stands in `CallResult`. -/
def Obligations.PcSequencing : Prop :=
  ∀ (i : Instr) (s t : State), s.status = .running → exec i s = .next t → ¬ t.isFaulted →
    (isSequential i = true → t.pc = s.pc + 1 + ((encode i).headD 0).toNat / 64) ∧
    (∀ a : Byte, i = .jmp a ∨ (i = .call a ∧ a ≠ 7) → ∃ v : Byte, s.regs[a.toNat]? = some v ∧ t.pc = v.toNat) ∧
    (i = .ret → ∃ v : Byte, s.mem.read s.regs[7].toNat = .ok v ∧ t.pc = v.toNat) ∧
    (∀ a : Byte, i = .jeq a →
      ∃ v : Byte, s.regs[a.toNat]? = some v ∧ t.pc = if s.flags.e then v.toNat else s.pc + 2) ∧
    (∀ a : Byte, i = .jne a →
      ∃ v : Byte, s.regs[a.toNat]? = some v ∧ t.pc = if s.flags.e then s.pc + 2 else v.toNat)

/-- R30: only HLT, the opcode byte 0x01, makes a machine Halted. -/
def Obligations.OnlyHltHalts : Prop :=
  ∀ s t : State, step s = .next t → t.status = .halted → s.mem.read s.pc = .ok 0x01

/-- R30, R111 and the decision D17: Halted and Faulted are final; a run from such a state never leaves it, and the step
says which it is (log 3, log 4). -/
def Obligations.FinalStatesNeverLeft : Prop :=
  ∀ s t : State, s.status ≠ .running → Reaches s t →
    t = s ∧ (s.status = .halted → step t = .fault .halted) ∧
      (∀ record, s.status = .faulted record → step t = .fault (.faulted record))

/-! ### Memory, reset, load -/

/-- R40 and R41: the read port answers the cell's byte, and both ports fail with MemoryBoundsError exactly outside
[0, N); a write sets its own byte and no other, for every memory in canonical form. -/
def Obligations.MemoryPortsReadAndWrite : Prop :=
  ∀ (m : Memory) (a : Nat) (v : Byte), m.wf →
    (a < m.size → m.read a = .ok (lookupCell a m.cells) ∧
      ∃ m', m.write a v = .ok m' ∧ m'.size = m.size ∧ m'.read a = .ok v ∧ ∀ b, b ≠ a → m'.read b = m.read b) ∧
    (m.size ≤ a → m.read a = .error (.memoryBounds a) ∧ m.write a v = .error (.memoryBounds a))

/-- R37: the state after reset, for every memory size, and that the loader then only writes the program bytes from
address 0. -/
def Obligations.ResetState : Prop :=
  State.reset = State.resetWith 256 ∧
  ∀ n : Nat,
    (∀ a, a < n → (State.resetWith n).mem.read a = .ok 0) ∧ (State.resetWith n).mem.size = n ∧
    (∀ r (h : r < 7), (State.resetWith n).regs[r] = 0) ∧ (State.resetWith n).regs[7] = 0xF4 ∧
    (State.resetWith n).flags = ⟨false, false, false⟩ ∧ (State.resetWith n).pc = 0 ∧
    (State.resetWith n).status = .running ∧ (State.resetWith n).out = [] ∧
    ∀ (program : List Byte) (t : State), load program (State.resetWith n) = .ok t →
      t = { State.resetWith n with mem := t.mem } ∧
        ∀ k (h : k < program.length), t.mem.read k = .ok program[k]

/-- R122: a program that fits is loaded from address 0 with the bytes after it still 0, a longer one is LoadError
(decision D15, log 18), and a malformed text is LoadError whatever the machine. -/
def Obligations.LoadPlacesProgram : Prop :=
  ∀ (n : Nat) (program : List Byte),
    (program.length ≤ n → ∃ t, load program (State.resetWith n) = .ok t ∧ t.mem.size = n ∧
      (∀ k (h : k < program.length), t.mem.read k = .ok program[k]) ∧
      (∀ k, program.length ≤ k → k < n → t.mem.read k = .ok 0)) ∧
    (n < program.length → load program (State.resetWith n) = .error .tooLong) ∧
    (∀ text e, parseProgram text = .error e → loadText text (State.resetWith n) = .error e)

/-! ### The ALU instructions (41_alu.md) -/

/-- R84: ADD. -/
def Obligations.AddResult : Prop :=
  ∀ (a b : Byte) (s : State), encode (.add a b) = [0xA0, a, b] ∧
    (∀ (ha : a.toNat < 8) (hb : b.toNat < 8), exec (.add a b) s = .next { s with
      regs := s.regs.set a.toNat (BitVec.ofNat 8 ((s.regs[a.toNat].toNat + s.regs[b.toNat].toNat) % 256))
      pc := s.pc + 3 }) ∧
    (8 ≤ a.toNat → Raises (exec (.add a b) s) (IsIndexError a)) ∧
    (a.toNat < 8 → 8 ≤ b.toNat → Raises (exec (.add a b) s) (IsIndexError b))

/-- R85: MUL. -/
def Obligations.MulResult : Prop :=
  ∀ (a b : Byte) (s : State), encode (.mul a b) = [0xA2, a, b] ∧
    (∀ (ha : a.toNat < 8) (hb : b.toNat < 8), exec (.mul a b) s = .next { s with
      regs := s.regs.set a.toNat (BitVec.ofNat 8 ((s.regs[a.toNat].toNat * s.regs[b.toNat].toNat) % 256))
      pc := s.pc + 3 }) ∧
    (8 ≤ a.toNat → Raises (exec (.mul a b) s) (IsIndexError a)) ∧
    (a.toNat < 8 → 8 ≤ b.toNat → Raises (exec (.mul a b) s) (IsIndexError b))

/-- R86: CMP sets one flag to 1 and keeps the other two. -/
def Obligations.CmpResult : Prop :=
  ∀ (a b : Byte) (s : State), encode (.cmp a b) = [0xA7, a, b] ∧
    (∀ (ha : a.toNat < 8) (hb : b.toNat < 8),
      (s.regs[a.toNat] = s.regs[b.toNat] →
        exec (.cmp a b) s = .next { s with flags := ⟨true, s.flags.l, s.flags.g⟩, pc := s.pc + 3 }) ∧
      (s.regs[a.toNat].toNat < s.regs[b.toNat].toNat →
        exec (.cmp a b) s = .next { s with flags := ⟨s.flags.e, true, s.flags.g⟩, pc := s.pc + 3 }) ∧
      (s.regs[b.toNat].toNat < s.regs[a.toNat].toNat →
        exec (.cmp a b) s = .next { s with flags := ⟨s.flags.e, s.flags.l, true⟩, pc := s.pc + 3 })) ∧
    (8 ≤ a.toNat → Raises (exec (.cmp a b) s) (IsIndexError a)) ∧
    (a.toNat < 8 → 8 ≤ b.toNat → Raises (exec (.cmp a b) s) (IsIndexError b))

/-- R24: only CMP writes a flag; JEQ and JNE read E; no instruction reads L or G. -/
def Obligations.FlagAccess : Prop :=
  (∀ (i : Instr) (s t : State), (∀ a b, i ≠ .cmp a b) → exec i s = .next t → t.flags = s.flags) ∧
  (∀ (a : Byte) (s : State) (ha : a.toNat < 8),
    exec (.jeq a) s = .next { s with pc := if s.flags.e then s.regs[a.toNat].toNat else s.pc + 2 } ∧
    exec (.jne a) s = .next { s with pc := if s.flags.e then s.pc + 2 else s.regs[a.toNat].toNat }) ∧
  (∀ (i : Instr) (s t : State) (l g : Bool), exec i s = .next t →
    ∃ t', exec i (withLG s l g) = .next t' ∧ t' = withLG t t'.flags.l t'.flags.g)

/-- R25, R124: no run clears a flag, so once E is set JEQ branches and JNE does not, in every state reached. -/
def Obligations.StickyFlags : Prop :=
  ∀ s t : State, Reaches s t →
    (s.flags.l = true → t.flags.l = true) ∧ (s.flags.g = true → t.flags.g = true) ∧
    (s.flags.e = true → t.flags.e = true ∧ ∀ (a : Byte) (ha : a.toNat < 8),
      exec (.jeq a) t = .next { t with pc := t.regs[a.toNat].toNat } ∧
      exec (.jne a) t = .next { t with pc := t.pc + 2 })

/-- R81: no step of a Running machine raises the ALU's unsupported-operation error. -/
def Obligations.AluErrorNeverRaised : Prop :=
  ∀ (s t : State) (pc : Nat), step s = .next t → t.status ≠ .faulted ⟨pc, .aluUnsupported⟩

/-! ### HLT, LDI, PRN (42_data_and_system.md) -/

/-- R87: HLT, as an instruction and as a whole cycle after which the machine has no step. -/
def Obligations.HltHalts : Prop :=
  encode .hlt = [0x01] ∧
  ∀ s : State, exec .hlt s = .next { s with status := .halted, pc := s.pc + 1 } ∧
    (s.status = .running → s.mem.read s.pc = .ok 0x01 →
      step s = .next { s with status := .halted, pc := s.pc + 1 } ∧
        ∀ t, step { s with status := .halted, pc := s.pc + 1 } ≠ .next t)

/-- R88: LDI. Its operand_b is not a register and is never checked. -/
def Obligations.LdiResult : Prop :=
  ∀ (a b : Byte) (s : State), encode (.ldi a b) = [0x82, a, b] ∧
    (∀ ha : a.toNat < 8, exec (.ldi a b) s = .next { s with regs := s.regs.set a.toNat b, pc := s.pc + 3 }) ∧
    (8 ≤ a.toNat → Raises (exec (.ldi a b) s) (IsIndexError a))

/-- R89: PRN appends the register's byte to OUT. That OUT holds bytes is the decision D12 (log 17), and that a PRN that
faults emits nothing is D3 (log 7). -/
def Obligations.PrnResult : Prop :=
  ∀ (a : Byte) (s : State), encode (.prn a) = [0x47, a] ∧
    (∀ ha : a.toNat < 8, exec (.prn a) s = .next { s with out := s.out ++ [s.regs[a.toNat]], pc := s.pc + 2 }) ∧
    (8 ≤ a.toNat → exec (.prn a) s = .next (faulted s (.registerIndex a 0x47)))

/-- R32: a run only appends to OUT, and a step that appends ran the opcode 0x47 and appended one byte. -/
def Obligations.OutputOnlyAppended : Prop :=
  (∀ s t : State, Reaches s t → s.out <+: t.out) ∧
  (∀ s t : State, step s = .next t → t.out ≠ s.out →
    s.mem.read s.pc = .ok 0x47 ∧ ∃ v : Byte, t.out = s.out ++ [v] ∧ v ∈ s.regs.toList)

/-! ### The stack (43_stack.md) -/

/-- R94: PUSH completes, with the byte it stores and everything it leaves alone. That `PUSH R7` stores the decremented
SP is the decision D6 (log 10). -/
def Obligations.PushResult : Prop :=
  ∀ (a : Byte) (s : State) (ha : a.toNat < 8), s.mem.wf → s.regs[7] ≠ 0 → s.regs[7].toNat - 1 < s.mem.size →
    ∃ t, exec (.push a) s = .next t ∧
      t = { s with regs := s.regs.set 7 (s.regs[7] - 1), pc := s.pc + 2, mem := t.mem } ∧
      t.mem.wf ∧ t.mem.size = s.mem.size ∧
      t.mem.read (s.regs[7].toNat - 1) = .ok (if a = 7 then s.regs[7] - 1 else s.regs[a.toNat]) ∧
      ∀ b, b ≠ s.regs[7].toNat - 1 → t.mem.read b = s.mem.read b

/-- R94's checks in their order, and nothing committed (the decisions D3, D4, D19: log 7, log 8, log 15). -/
def Obligations.PushFaults : Prop :=
  ∀ (a : Byte) (s : State),
    (8 ≤ a.toNat → exec (.push a) s = .next (faulted s (.registerIndex a 0x45))) ∧
    (a.toNat < 8 → s.regs[7] = 0 → exec (.push a) s = .next (faulted s (.stackOverflow 0 0x45))) ∧
    (a.toNat < 8 → s.regs[7] ≠ 0 → s.mem.size ≤ s.regs[7].toNat - 1 →
      exec (.push a) s = .next (faulted s (.memoryBounds (s.regs[7].toNat - 1))))

/-- R93: PUSH and CALL raise StackOverflow at SP = 0, and MemoryBoundsError(SP - 1) where the slot is outside memory. -/
def Obligations.PushOverflow : Prop :=
  ∀ (i : Instr) (a : Byte) (s : State), i = .push a ∨ i = .call a → a.toNat < 8 →
    (s.regs[7] = 0 → Raises (exec i s) IsOverflow) ∧
    (1 ≤ s.regs[7].toNat → s.mem.size ≤ s.regs[7].toNat - 1 →
      Raises (exec i s) (fun cause => cause = .memoryBounds (s.regs[7].toNat - 1)))

/-- R95: POP completes. That `POP R7` leaves the popped byte plus one is the decision D6 (log 10); the increment's
bound is D7 (log 11), and the sentinel's exact test D8 (log 12). -/
def Obligations.PopResult : Prop :=
  ∀ (a v : Byte) (s : State) (ha : a.toNat < 8), s.regs[7] ≠ 0xF4 → s.mem.read s.regs[7].toNat = .ok v →
    (a ≠ 7 → s.regs[7] ≠ 0xFF →
      exec (.pop a) s = .next { s with regs := (s.regs.set a.toNat v).set 7 (s.regs[7] + 1), pc := s.pc + 2 }) ∧
    (a = 7 → v ≠ 0xFF →
      exec (.pop a) s = .next { s with regs := s.regs.set 7 (v + 1), pc := s.pc + 2 })

/-- R95's checks in their order, and nothing committed (the decisions D3, D4, D7, D8, D19). -/
def Obligations.PopFaults : Prop :=
  ∀ (a : Byte) (s : State),
    (8 ≤ a.toNat → exec (.pop a) s = .next (faulted s (.registerIndex a 0x46))) ∧
    (a.toNat < 8 → s.regs[7] = 0xF4 → exec (.pop a) s = .next (faulted s (.stackUnderflow 0xF4 0x46))) ∧
    (a.toNat < 8 → s.regs[7] ≠ 0xF4 → s.mem.size ≤ s.regs[7].toNat →
      exec (.pop a) s = .next (faulted s (.memoryBounds s.regs[7].toNat))) ∧
    (∀ v, a.toNat < 8 → s.regs[7] ≠ 0xF4 → s.mem.read s.regs[7].toNat = .ok v →
      (if a = 7 then v else s.regs[7]) = 0xFF →
      exec (.pop a) s = .next (faulted s (.stackUnderflow s.regs[7] 0x46)))

/-- R96: PUSH r then POP r2, neither of them register 7, gives r2 the value of r and restores SP, when neither faults:
the PUSH has a slot, and the POP does not meet the sentinel (SP was not 0xF5). -/
def Obligations.PushThenPop : Prop :=
  ∀ (r r2 : Byte) (s : State) (h : r.toNat < 7) (h2 : r2.toNat < 7), s.mem.wf → s.regs[7] ≠ 0 → s.regs[7] ≠ 0xF5 →
    s.regs[7].toNat - 1 < s.mem.size →
    ∃ t u, exec (.push r) s = .next t ∧ exec (.pop r2) t = .next u ∧ u.regs = s.regs.set r2.toNat s.regs[r.toNat] ∧
      u.pc = s.pc + 4 ∧ u.status = s.status

/-! ### Control transfer (44_control_transfer.md) -/

/-- R100: CALL completes, with the return address it stores and everything it leaves alone. That `CALL R7` jumps to the
decremented SP is the decision D6 (log 10), and the return address's bound is D9 (log 13). -/
def Obligations.CallResult : Prop :=
  ∀ (a : Byte) (s : State) (ha : a.toNat < 8), s.mem.wf → s.regs[7] ≠ 0 → s.regs[7].toNat - 1 < s.mem.size →
    s.pc + 2 ≤ 0xFF →
    ∃ t, exec (.call a) s = .next t ∧
      t = { s with regs := s.regs.set 7 (s.regs[7] - 1), mem := t.mem,
                   pc := if a = 7 then s.regs[7].toNat - 1 else s.regs[a.toNat].toNat } ∧
      t.mem.wf ∧ t.mem.size = s.mem.size ∧
      t.mem.read (s.regs[7].toNat - 1) = .ok (BitVec.ofNat 8 (s.pc + 2)) ∧
      ∀ b, b ≠ s.regs[7].toNat - 1 → t.mem.read b = s.mem.read b

/-- R100's checks in their order, and nothing committed (the decisions D3, D4, D9, D19). -/
def Obligations.CallFaults : Prop :=
  ∀ (a : Byte) (s : State),
    (8 ≤ a.toNat → exec (.call a) s = .next (faulted s (.registerIndex a 0x50))) ∧
    (a.toNat < 8 → s.regs[7] = 0 → exec (.call a) s = .next (faulted s (.stackOverflow 0 0x50))) ∧
    (a.toNat < 8 → s.regs[7] ≠ 0 → s.mem.size ≤ s.regs[7].toNat - 1 →
      exec (.call a) s = .next (faulted s (.memoryBounds (s.regs[7].toNat - 1)))) ∧
    (a.toNat < 8 → s.regs[7] ≠ 0 → s.regs[7].toNat - 1 < s.mem.size → 0xFF < s.pc + 2 →
      exec (.call a) s = .next (faulted s (.memoryBounds (s.pc + 2))))

/-- R101: RET completes (the increment's bound is the decision D7, log 11; the sentinel's exact test D8, log 12). -/
def Obligations.RetResult : Prop :=
  encode .ret = [0x11] ∧
  ∀ (v : Byte) (s : State), s.regs[7] ≠ 0xF4 → s.regs[7] ≠ 0xFF → s.mem.read s.regs[7].toNat = .ok v →
    exec .ret s = .next { s with regs := s.regs.set 7 (s.regs[7] + 1), pc := v.toNat }

/-- R101's checks in their order, and nothing committed (the decisions D3, D4, D7, D8, D19). -/
def Obligations.RetFaults : Prop :=
  ∀ s : State,
    (s.regs[7] = 0xF4 → exec .ret s = .next (faulted s (.stackUnderflow 0xF4 0x11))) ∧
    (s.regs[7] ≠ 0xF4 → s.mem.size ≤ s.regs[7].toNat →
      exec .ret s = .next (faulted s (.memoryBounds s.regs[7].toNat))) ∧
    (s.regs[7] = 0xFF → s.regs[7].toNat < s.mem.size →
      exec .ret s = .next (faulted s (.stackUnderflow 0xFF 0x11)))

/-- R102: CALL into a RET comes back to the instruction after the CALL with SP restored, in two whole cycles, when the
operand is not register 7 and neither faults. The RET must not be where the CALL stores its return address, and the
POP side must not meet the sentinel (SP was not 0xF5). -/
def Obligations.CallThenRet : Prop :=
  ∀ (a : Byte) (s : State) (h : a.toNat < 7), s.mem.wf → s.status = .running →
    s.mem.read s.pc = .ok 0x50 → s.mem.read (s.pc + 1) = .ok a → s.pc + 2 ≤ 0xFF →
    s.regs[7] ≠ 0 → s.regs[7] ≠ 0xF5 → s.regs[7].toNat - 1 < s.mem.size →
    s.mem.read s.regs[a.toNat].toNat = .ok 0x11 → s.regs[a.toNat].toNat ≠ s.regs[7].toNat - 1 →
    ∃ t u, step s = .next t ∧ step t = .next u ∧ u.pc = s.pc + 2 ∧ u.regs = s.regs ∧ u.status = .running

/-- R103: JMP. A jump to itself changes nothing. That the jump completes also with a target outside memory, where the next
fetch faults (`FetchOutsideMemoryFaults`), is the spec's decision D25 (R98, log 14). -/
def Obligations.JmpResult : Prop :=
  ∀ (a : Byte) (s : State), encode (.jmp a) = [0x54, a] ∧
    (∀ ha : a.toNat < 8, exec (.jmp a) s = .next { s with pc := s.regs[a.toNat].toNat } ∧
      (s.regs[a.toNat].toNat = s.pc → exec (.jmp a) s = .next s)) ∧
    (8 ≤ a.toNat → Raises (exec (.jmp a) s) (IsIndexError a))

/-- R104: JEQ. That an operand above 7 faults also when the branch is not taken is the decision D5 (log 9). -/
def Obligations.JeqResult : Prop :=
  ∀ (a : Byte) (s : State), encode (.jeq a) = [0x55, a] ∧
    (∀ ha : a.toNat < 8,
      (s.flags.e = true → exec (.jeq a) s = .next { s with pc := s.regs[a.toNat].toNat }) ∧
      (s.flags.e = false → exec (.jeq a) s = .next { s with pc := s.pc + 2 })) ∧
    (8 ≤ a.toNat → exec (.jeq a) s = .next (faulted s (.registerIndex a 0x55)))

/-- R105: JNE. That an operand above 7 faults also when the branch is not taken is the decision D5 (log 9). -/
def Obligations.JneResult : Prop :=
  ∀ (a : Byte) (s : State), encode (.jne a) = [0x56, a] ∧
    (∀ ha : a.toNat < 8,
      (s.flags.e = false → exec (.jne a) s = .next { s with pc := s.regs[a.toNat].toNat }) ∧
      (s.flags.e = true → exec (.jne a) s = .next { s with pc := s.pc + 2 })) ∧
    (8 ≤ a.toNat → exec (.jne a) s = .next (faulted s (.registerIndex a 0x56)))

/-! ### What instructions leave alone -/

/-- The frame of LDI, ADD and MUL: only `x[a]`, pc and status may differ; every byte of memory reads as before. -/
def Obligations.RegisterWriteFrame : Prop :=
  ∀ (i : Instr) (a b : Byte) (s t : State), i = .ldi a b ∨ i = .add a b ∨ i = .mul a b → exec i s = .next t →
    (∀ r (h : r < 8), r ≠ a.toNat → t.regs[r] = s.regs[r]) ∧ t.flags = s.flags ∧
    (∀ addr, t.mem.read addr = s.mem.read addr) ∧ t.out = s.out ∧ (t.status = s.status ∨ t.isFaulted)

/-- The frame of HLT, PRN, CMP, JMP, JEQ and JNE: no register and no byte of memory differs, only CMP may change the
flags, and only PRN may change OUT. -/
def Obligations.NoRegisterFrame : Prop :=
  ∀ (i : Instr) (s t : State), exec i s = .next t →
    (i = .hlt ∨ (∃ a, i = .prn a) ∨ (∃ a b, i = .cmp a b) ∨ (∃ a, i = .jmp a) ∨ (∃ a, i = .jeq a) ∨ ∃ a, i = .jne a) →
    t.regs = s.regs ∧ (∀ addr, t.mem.read addr = s.mem.read addr) ∧
    ((∀ a b, i ≠ .cmp a b) → t.flags = s.flags) ∧ ((∀ a, i ≠ .prn a) → t.out = s.out) ∧
    (i ≠ .hlt → t.status = s.status ∨ t.isFaulted)

/-- The frame of PUSH and CALL: only SP differs among the registers, and every address but the one their checks give as
the slot reads as before; where the checks give none, all of memory does. -/
def Obligations.PushCallFrame : Prop :=
  ∀ (i : Instr) (a opcode : Byte) (s t : State),
    (i = .push a ∧ opcode = 0x45) ∨ (i = .call a ∧ opcode = 0x50) → exec i s = .next t →
    (∀ r (h : r < 7), t.regs[r] = s.regs[r]) ∧ t.flags = s.flags ∧ t.out = s.out ∧
    (t.status = s.status ∨ t.isFaulted) ∧
    (∀ slot, pushSlot opcode s = .ok slot → ∀ b, b ≠ slot.toNat → t.mem.read b = s.mem.read b) ∧
    (∀ c, pushSlot opcode s = .error c → ∀ b, t.mem.read b = s.mem.read b)

/-- The frame of POP and RET: only POP's destination and SP differ among the registers, and all of memory reads as
before (R95: POP does not change the popped byte). -/
def Obligations.PopRetFrame : Prop :=
  ∀ (i : Instr) (s t : State), exec i s = .next t → i = .ret ∨ (∃ a, i = .pop a) →
    (∀ r (h : r < 7), (∀ a : Byte, i = .pop a → r ≠ a.toNat) → t.regs[r] = s.regs[r]) ∧ t.flags = s.flags ∧
    (∀ addr, t.mem.read addr = s.mem.read addr) ∧ t.out = s.out ∧ (t.status = s.status ∨ t.isFaulted)

/-! ### Rules of the whole machine -/

/-- R22: the first register operand above 7 raises RegisterIndexError with that byte and the opcode, in every
instruction and whether or not the register would be used (the decisions D3, D4, D5, D19); an instruction whose
register operands are all 0 to 7 never raises it. -/
def Obligations.RegisterOperandsChecked : Prop :=
  ∀ (i : Instr) (s : State),
    (∀ index, i.regOperands.find? (fun x => 8 ≤ x.toNat) = some index →
      exec i s = .next (faulted s (.registerIndex index ((encode i).headD 0)))) ∧
    (i.wellFormed = true → s.status = .running → ¬ Raises (exec i s) (fun cause => ∃ x, IsIndexError x cause))

/-- R21, the "writes" column: an instruction changes no register outside its row. -/
def Obligations.RegistersWritten : Prop :=
  ∀ (i : Instr) (s t : State), exec i s = .next t →
    ∀ r (h : r < 8), r ∉ writtenRegs i → t.regs[r] = s.regs[r]

/-- R21, the "reads" column: a register that an instruction neither names nor uses as SP has no effect on it. -/
def Obligations.RegistersRead : Prop :=
  ∀ (i : Instr) (s t : State) (r : Nat) (v : Byte) (h : r < 8), (∀ a ∈ i.regOperands, a.toNat ≠ r) →
    (usesStack i = true → r ≠ 7) → exec i s = .next t →
    exec i { s with regs := s.regs.set r v } = .next { t with regs := t.regs.set r v }

/-- R39: no instruction but PUSH, POP, CALL and RET depends on memory or changes it, and of those POP and RET leave it
unchanged (90_conflicts.md C5). -/
def Obligations.MemoryAccess : Prop :=
  (∀ (i : Instr) (s t : State) (m : Memory), usesStack i = false → exec i s = .next t →
    t.mem = s.mem ∧ exec i { s with mem := m } = .next { t with mem := m }) ∧
  (∀ (i : Instr) (s t : State), exec i s = .next t → t.mem ≠ s.mem → ∃ a, i = .push a ∨ i = .call a)

/-- The machine's invariant is kept by every step, from every state that has it, and so is the memory's size: memory in
canonical form (log 1) and of a legal size (R10), pc in its range (R28), and a fault record whose pc is the machine's
own (R76, R107) and whose cause is not the unreachable ALU error (R81). -/
def Obligations.StepKeepsInvariant : Prop :=
  ∀ s t : State, Inv s → step s = .next t → Inv t ∧ t.mem.size = s.mem.size

/-- The invariant holds of every machine of a legal size after reset, and after any load into it (R10, R37, R122). -/
def Obligations.LoadedMachineMeetsInvariant : Prop :=
  Inv State.reset ∧ ∀ (n : Nat) (program : List Byte) (t : State), 1 ≤ n → n ≤ 256 →
    Inv (State.resetWith n) ∧ (load program (State.resetWith n) = .ok t → Inv t)
end

