-- ==== Sys2Proof/Laws/Decode.lean ====
section
/-! SUPPORT. The decoder's small facts: each table opcode's operand count and table entry. -/

namespace Sys2Proof

/-- The count column of 30_encoding.md R63. -/
theorem operandCount_table : operandCount Opcode.hlt = 0 ∧ operandCount Opcode.ldi = 2 ∧ operandCount Opcode.prn = 1 ∧
    operandCount Opcode.add = 2 ∧ operandCount Opcode.mul = 2 ∧ operandCount Opcode.push = 1 ∧
    operandCount Opcode.pop = 1 ∧ operandCount Opcode.call = 1 ∧ operandCount Opcode.ret = 0 ∧
    operandCount Opcode.cmp = 2 ∧ operandCount Opcode.jmp = 1 ∧ operandCount Opcode.jeq = 1 ∧
    operandCount Opcode.jne = 1 := by decide

@[simp] theorem operandCount_hlt : operandCount Opcode.hlt = 0 := rfl
@[simp] theorem operandCount_ldi : operandCount Opcode.ldi = 2 := rfl
@[simp] theorem operandCount_prn : operandCount Opcode.prn = 1 := rfl
@[simp] theorem operandCount_add : operandCount Opcode.add = 2 := rfl
@[simp] theorem operandCount_mul : operandCount Opcode.mul = 2 := rfl
@[simp] theorem operandCount_push : operandCount Opcode.push = 1 := rfl
@[simp] theorem operandCount_pop : operandCount Opcode.pop = 1 := rfl
@[simp] theorem operandCount_call : operandCount Opcode.call = 1 := rfl
@[simp] theorem operandCount_ret : operandCount Opcode.ret = 0 := rfl
@[simp] theorem operandCount_cmp : operandCount Opcode.cmp = 2 := rfl
@[simp] theorem operandCount_jmp : operandCount Opcode.jmp = 1 := rfl
@[simp] theorem operandCount_jeq : operandCount Opcode.jeq = 1 := rfl
@[simp] theorem operandCount_jne : operandCount Opcode.jne = 1 := rfl

@[simp] theorem lookupOpcode_hlt : lookupOpcode Opcode.hlt = some .hlt := by decide
@[simp] theorem lookupOpcode_ldi : lookupOpcode Opcode.ldi = some .ldi := by decide
@[simp] theorem lookupOpcode_prn : lookupOpcode Opcode.prn = some .prn := by decide
@[simp] theorem lookupOpcode_add : lookupOpcode Opcode.add = some .add := by decide
@[simp] theorem lookupOpcode_mul : lookupOpcode Opcode.mul = some .mul := by decide
@[simp] theorem lookupOpcode_push : lookupOpcode Opcode.push = some .push := by decide
@[simp] theorem lookupOpcode_pop : lookupOpcode Opcode.pop = some .pop := by decide
@[simp] theorem lookupOpcode_call : lookupOpcode Opcode.call = some .call := by decide
@[simp] theorem lookupOpcode_ret : lookupOpcode Opcode.ret = some .ret := by decide
@[simp] theorem lookupOpcode_cmp : lookupOpcode Opcode.cmp = some .cmp := by decide
@[simp] theorem lookupOpcode_jmp : lookupOpcode Opcode.jmp = some .jmp := by decide
@[simp] theorem lookupOpcode_jeq : lookupOpcode Opcode.jeq = some .jeq := by decide
@[simp] theorem lookupOpcode_jne : lookupOpcode Opcode.jne = some .jne := by decide

/-- The operand count is the opcode's top two bits as a number. -/
theorem operandCount_eq_div (opcode : Byte) : operandCount opcode = opcode.toNat / 64 := by
  have := opcode.isLt
  simp only [operandCount, BitVec.extractLsb, BitVec.extractLsb'_toNat, Nat.shiftRight_eq_div_pow]
  omega

/-- An opcode the table has, with the operand count of its mnemonic's row. -/
def Mnemonic.count : Mnemonic → Nat
  | .hlt => 0 | .ldi => 2 | .prn => 1 | .add => 2 | .mul => 2 | .push => 1 | .pop => 1
  | .call => 1 | .ret => 0 | .cmp => 2 | .jmp => 1 | .jeq => 1 | .jne => 1

/-- The opcode byte of a mnemonic's row. -/
def Mnemonic.opcode : Mnemonic → Byte
  | .hlt => Opcode.hlt | .ldi => Opcode.ldi | .prn => Opcode.prn | .add => Opcode.add | .mul => Opcode.mul
  | .push => Opcode.push | .pop => Opcode.pop | .call => Opcode.call | .ret => Opcode.ret | .cmp => Opcode.cmp
  | .jmp => Opcode.jmp | .jeq => Opcode.jeq | .jne => Opcode.jne

/-- A lookup that answers found its row. -/
theorem mem_of_lookup {α β : Type} [BEq α] [LawfulBEq α] {a : α} {b : β} :
    ∀ {l : List (α × β)}, l.lookup a = some b → (a, b) ∈ l
  | [], h => by simp at h
  | (k, v) :: rest, h => by
    by_cases e : a == k
    · simp [List.lookup, e] at h
      simp [beq_iff_eq.mp e, h]
    · simp [List.lookup, e] at h
      exact List.mem_cons_of_mem _ (mem_of_lookup h)

/-- A table hit is the row's own opcode, whose top bits give the row's count (30_encoding.md R63). -/
theorem lookupOpcode_some {opcode : Byte} {m : Mnemonic} (h : lookupOpcode opcode = some m) :
    opcode = m.opcode ∧ operandCount opcode = m.count := by
  have rows : ∀ row ∈ opcodeTable, row.1 = row.2.opcode ∧ operandCount row.1 = row.2.count := by decide
  exact rows _ (mem_of_lookup h)

end Sys2Proof
end

