-- ==== Sys2Proof/Laws/Memory.lean ====
section
/-! SUPPORT. The laws of memory: reading after writing, and that every memory operation keeps the canonical form. -/

namespace Sys2Proof.Machine

/-! ### Cell lists -/

/-- A write leaves every other address as it was, whatever the list. -/
theorem lookupCell_insertCell_other {a b : Nat} (v : Byte) (h : b ≠ a) (cells : List Host.Cell) :
    lookupCell b (insertCell a v cells) = lookupCell b cells := by
  induction cells with
  | nil => by_cases hv : v = Config.blankByte <;> simp [insertCell, lookupCell, hv, h]
  | cons c rest ih =>
    obtain ⟨k, w⟩ := c
    simp only [insertCell]
    split
    · split <;> simp [lookupCell, h]
    · split
      · rename_i hk; subst hk
        split <;> simp [lookupCell, h]
      · simp [lookupCell, ih]

/-- An address below every listed one is unlisted. -/
theorem lookupCell_of_lt {a : Nat} (cells : List Host.Cell) (h : ∀ c ∈ cells, a < c.1) :
    lookupCell a cells = Config.blankByte := by
  induction cells with
  | nil => rfl
  | cons c rest ih =>
    obtain ⟨k, w⟩ := c
    have hk : a < k := h (k, w) (by simp)
    have : a ≠ k := by omega
    simp [lookupCell, this, ih fun c hc => h c (by simp [hc])]

/-- A write to a rising list is what the same address reads next. -/
theorem lookupCell_insertCell_same (a : Nat) (v : Byte) (cells : List Host.Cell)
    (rising : cells.Pairwise (fun c d => c.1 < d.1)) : lookupCell a (insertCell a v cells) = v := by
  induction cells with
  | nil => by_cases hv : v = Config.blankByte <;> simp [insertCell, lookupCell, hv]
  | cons c rest ih =>
    obtain ⟨k, w⟩ := c
    obtain ⟨above, rest_rising⟩ := List.pairwise_cons.mp rising
    simp only [insertCell]
    split
    · rename_i hak
      split
      · rename_i hv
        rw [hv]
        exact lookupCell_of_lt _ fun c hc => by
          rcases List.mem_cons.mp hc with rfl | hc
          · exact hak
          · exact Nat.lt_trans hak (above c hc)
      · simp [lookupCell]
    · split
      · rename_i hak; subst hak
        split
        · rename_i hv
          rw [hv]
          exact lookupCell_of_lt _ above
        · simp [lookupCell]
      · rename_i hne; simp [lookupCell, hne, ih rest_rising]

/-- The entries after a write are old ones, or the written byte when it is not blank. -/
theorem mem_insertCell {a : Nat} {v : Byte} {cells : List Host.Cell} {c : Host.Cell}
    (h : c ∈ insertCell a v cells) : c ∈ cells ∨ (c = (a, v) ∧ v ≠ Config.blankByte) := by
  induction cells with
  | nil => by_cases hv : v = Config.blankByte <;> simp_all [insertCell]
  | cons d rest ih =>
    obtain ⟨k, w⟩ := d
    simp only [insertCell] at h
    split at h
    · split at h <;> simp_all; tauto
    · split at h
      · split at h <;> simp_all; tauto
      · rcases List.mem_cons.mp h with h | h
        · simp [h]
        · rcases ih h with h | h <;> simp [h]

/-- A write keeps the addresses strictly rising. -/
theorem insertCell_rising (a : Nat) (v : Byte) (cells : List Host.Cell)
    (rising : cells.Pairwise (fun c d => c.1 < d.1)) :
    (insertCell a v cells).Pairwise (fun c d => c.1 < d.1) := by
  induction cells with
  | nil => by_cases hv : v = Config.blankByte <;> simp [insertCell, hv]
  | cons c rest ih =>
    obtain ⟨k, w⟩ := c
    obtain ⟨above, rest_rising⟩ := List.pairwise_cons.mp rising
    simp only [insertCell]
    split
    · rename_i hak
      split
      · exact rising
      · refine List.pairwise_cons.mpr ⟨fun c hc => ?_, rising⟩
        rcases List.mem_cons.mp hc with rfl | hc
        · exact hak
        · exact Nat.lt_trans hak (above c hc)
    · split
      · rename_i hak; subst hak
        split
        · exact rest_rising
        · exact List.pairwise_cons.mpr ⟨above, rest_rising⟩
      · rename_i hlt hne
        refine List.pairwise_cons.mpr ⟨fun c hc => ?_, ih rest_rising⟩
        rcases mem_insertCell hc with hc | ⟨rfl, -⟩
        · exact above c hc
        · show k < a
          omega

/-! ### The ports -/

@[simp] theorem Memory.store_size (m : Memory) (a : Nat) (v : Byte) : (m.store a v).size = m.size := rfl

/-- An in-range write keeps the canonical form. -/
theorem Memory.store_wf {m : Memory} {a : Nat} (v : Byte) (wf : m.wf) (h : a < m.size) : (m.store a v).wf := by
  refine ⟨insertCell_rising a v m.cells wf.1, fun c hc => ?_⟩
  rcases mem_insertCell hc with hc | ⟨rfl, hv⟩
  · exact wf.2 c hc
  · exact ⟨h, hv⟩

theorem Memory.checkBounds_of_lt {m : Memory} {a : Nat} (h : a < m.size) : m.checkBounds a = .ok () := by
  simp [Memory.checkBounds, h]

theorem Memory.checkBounds_of_ge {m : Memory} {a : Nat} (h : m.size ≤ a) :
    m.checkBounds a = .error (.memoryBounds a) := by
  simp [Memory.checkBounds, Nat.not_lt.mpr h]

theorem Memory.read_of_lt {m : Memory} {a : Nat} (h : a < m.size) : m.read a = .ok (lookupCell a m.cells) := by
  simp [Memory.read, Memory.checkBounds_of_lt h]

theorem Memory.read_of_ge {m : Memory} {a : Nat} (h : m.size ≤ a) : m.read a = .error (.memoryBounds a) := by
  simp [Memory.read, Memory.checkBounds_of_ge h]

/-- A read that answers a byte was in range. -/
theorem Memory.lt_of_read {m : Memory} {a : Nat} {v : Byte} (h : m.read a = .ok v) : a < m.size := by
  by_contra hn
  rw [Memory.read_of_ge (Nat.not_lt.mp hn)] at h
  cases h

theorem Memory.read_store_other (m : Memory) {a b : Nat} (v : Byte) (h : b ≠ a) :
    (m.store a v).read b = m.read b := by
  rcases Nat.lt_or_ge b m.size with hb | hb
  · rw [Memory.read_of_lt hb, Memory.read_of_lt (by simpa using hb)]
    simp [Memory.store, lookupCell_insertCell_other v h]
  · rw [Memory.read_of_ge hb, Memory.read_of_ge (by simpa using hb)]

theorem Memory.read_store_same {m : Memory} {a : Nat} (v : Byte) (wf : m.wf) (h : a < m.size) :
    (m.store a v).read a = .ok v := by
  rw [Memory.read_of_lt (by simpa using h)]
  simp [Memory.store, lookupCell_insertCell_same a v m.cells wf.1]

/-- Everything the write port can do. -/
theorem Memory.write_cases (m : Memory) (a : Nat) (v : Byte) :
    (a < m.size ∧ m.write a v = .ok (m.store a v)) ∨
      (m.size ≤ a ∧ m.write a v = .error (.memoryBounds a)) := by
  rcases Nat.lt_or_ge a m.size with h | h
  · exact .inl ⟨h, by simp [Memory.write, Memory.checkBounds_of_lt h]⟩
  · exact .inr ⟨h, by simp [Memory.write, Memory.checkBounds_of_ge h]⟩

/-- The write port keeps the canonical form. -/
theorem Memory.write_wf {m m' : Memory} {a : Nat} {v : Byte} (wf : m.wf) (h : m.write a v = .ok m') : m'.wf := by
  rcases m.write_cases a v with ⟨ha, e⟩ | ⟨-, e⟩ <;> rw [e] at h <;> cases h
  exact m.store_wf v wf ha

/-! ### Placing bytes -/

@[simp] theorem Memory.place_size (vs : List Byte) : ∀ (m : Memory) (a : Nat), (m.place a vs).size = m.size := by
  induction vs with
  | nil => intro m a; rfl
  | cons v vs ih => intro m a; simp only [Memory.place, ih]; split <;> rfl

/-- Placing bytes keeps the canonical form, out-of-range bytes or not. -/
theorem Memory.place_wf (vs : List Byte) : ∀ (m : Memory) (a : Nat), m.wf → (m.place a vs).wf := by
  induction vs with
  | nil => intro m a wf; exact wf
  | cons v vs ih =>
    intro m a wf
    refine ih _ _ ?_
    split
    · exact m.store_wf v wf ‹_›
    · exact wf

/-- Placing bytes leaves every address below them as it was. -/
theorem Memory.read_place_below (vs : List Byte) :
    ∀ (m : Memory) (a b : Nat), b < a → (m.place a vs).read b = m.read b := by
  induction vs with
  | nil => intro m a b _; rfl
  | cons v vs ih =>
    intro m a b h
    rw [Memory.place, ih _ _ _ (by omega)]
    split
    · exact m.read_store_other v (by omega)
    · rfl

/-- Placing bytes leaves every address above them as it was. -/
theorem Memory.read_place_above (vs : List Byte) :
    ∀ (m : Memory) (a b : Nat), a + vs.length ≤ b → (m.place a vs).read b = m.read b := by
  induction vs with
  | nil => intro m a b _; rfl
  | cons v vs ih =>
    intro m a b h
    simp only [List.length_cons] at h
    rw [Memory.place, ih _ _ _ (by omega)]
    split
    · exact m.read_store_other v (by omega)
    · rfl

/-- Placed bytes that fit read back. -/
theorem Memory.read_place (vs : List Byte) :
    ∀ (m : Memory) (a k : Nat) (h : k < vs.length), m.wf → a + vs.length ≤ m.size →
      (m.place a vs).read (a + k) = .ok vs[k] := by
  induction vs with
  | nil => intro m a k h; simp at h
  | cons v vs ih =>
    intro m a k h wf fits
    simp only [List.length_cons] at fits h
    have ha : a < m.size := by omega
    rw [Memory.place, if_pos ha]
    cases k with
    | zero =>
      rw [Memory.read_place_below _ _ _ _ (by omega)]
      simpa using m.read_store_same v wf ha
    | succ k =>
      have := ih (m.store a v) (a + 1) k (by omega) (m.store_wf v wf ha) (by simp; omega)
      simpa [Nat.add_assoc, Nat.add_comm 1 k] using this

/-! ### Reading in sequence -/

/-- A sequence of reads that all answer. -/
theorem Memory.readSeq_of_reads (m : Memory) (vs : List Byte) :
    ∀ a : Nat, (∀ k (h : k < vs.length), m.read (a + k) = .ok vs[k]) → m.readSeq a vs.length = .ok vs := by
  induction vs with
  | nil => intro a _; rfl
  | cons v vs ih =>
    intro a h
    have h0 : m.read a = .ok v := h 0 (by simp)
    have hs : m.readSeq (a + 1) vs.length = .ok vs := ih (a + 1) fun k hk => by
      have := h (k + 1) (by simpa using hk)
      simpa [Nat.add_assoc, Nat.add_comm 1 k] using this
    simp [Memory.readSeq, h0, hs]

/-- What a sequence of reads that answers has read, and that all of it was in range. -/
theorem Memory.readSeq_ok (m : Memory) (n : Nat) :
    ∀ (a : Nat) (vs : List Byte), m.readSeq a n = .ok vs → vs.length = n ∧ (n = 0 ∨ a + n ≤ m.size) := by
  induction n with
  | zero => intro a vs h; cases h; simp
  | succ n ih =>
    intro a vs h
    simp only [Memory.readSeq] at h
    split at h
    · cases h
    · rename_i v hv
      split at h
      · cases h
      · rename_i ws hws
        cases h
        obtain ⟨hl, hb⟩ := ih (a + 1) ws hws
        have := Memory.lt_of_read hv
        exact ⟨by simp [hl], .inr (by omega)⟩

/-- Each byte of a sequence of reads is what a single read of its address answers. -/
theorem Memory.read_of_readSeq (m : Memory) (n : Nat) :
    ∀ (a : Nat) (vs : List Byte), m.readSeq a n = .ok vs → ∀ k (h : k < vs.length), m.read (a + k) = .ok vs[k] := by
  induction n with
  | zero => intro a vs h; cases h; simp
  | succ n ih =>
    intro a vs h k hk
    simp only [Memory.readSeq] at h
    split at h
    · cases h
    · rename_i v hv
      split at h <;> cases h
      cases k with
      | zero => exact hv
      | succ k =>
        have := ih (a + 1) _ ‹_› k (by simpa using hk)
        simpa [Nat.add_assoc, Nat.add_comm 1 k] using this

/-- The fault of a sequence of reads: the first address out of range. -/
theorem Memory.readSeq_error (m : Memory) (n : Nat) :
    ∀ (a : Nat), a ≤ m.size → m.size < a + n → m.readSeq a n = .error (.memoryBounds m.size) := by
  induction n with
  | zero => intro a h1 h2; omega
  | succ n ih =>
    intro a h1 h2
    simp only [Memory.readSeq]
    rcases Nat.lt_or_ge a m.size with ha | ha
    · rw [Memory.read_of_lt ha]
      simp only
      rw [ih (a + 1) (by omega) (by omega)]
    · have : a = m.size := by omega
      rw [Memory.read_of_ge ha, this]

/-- A sequence of reads within the memory answers. -/
theorem Memory.readSeq_of_le (m : Memory) (n : Nat) :
    ∀ a : Nat, a + n ≤ m.size → ∃ vs, m.readSeq a n = .ok vs := by
  induction n with
  | zero => intro a _; exact ⟨[], rfl⟩
  | succ n ih =>
    intro a h
    obtain ⟨vs, e⟩ := ih (a + 1) (by omega)
    exact ⟨lookupCell a m.cells :: vs, by
      simp only [Memory.readSeq, Memory.read_of_lt (show a < m.size by omega), e]⟩

/-! ### The load -/

/-- The reset memory is in canonical form. -/
theorem reset_wf : State.reset.mem.wf := by decide

theorem resetWith_wf (n : Nat) : (State.resetWith n).mem.wf := by simp [State.resetWith, Memory.wf]

end Sys2Proof.Machine
end

