-- ==== Sys2Proof/Laws/State.lean ====
section
/-! SUPPORT. One lemma per field per update of State, true by definition, and reading a register after a write. -/

namespace Sys2Proof.Machine

variable (s : State)

/-! `setReg` -/

@[simp] theorem setReg_regs (r : RegIdx) (v : Byte) : (s.setReg r v).regs = s.regs.set r v := rfl
@[simp] theorem setReg_flags (r : RegIdx) (v : Byte) : (s.setReg r v).flags = s.flags := rfl
@[simp] theorem setReg_pc (r : RegIdx) (v : Byte) : (s.setReg r v).pc = s.pc := rfl
@[simp] theorem setReg_mem (r : RegIdx) (v : Byte) : (s.setReg r v).mem = s.mem := rfl
@[simp] theorem setReg_status (r : RegIdx) (v : Byte) : (s.setReg r v).status = s.status := rfl
@[simp] theorem setReg_out (r : RegIdx) (v : Byte) : (s.setReg r v).out = s.out := rfl

/-! `setSp` -/

@[simp] theorem setSp_regs (v : Byte) : (s.setSp v).regs = s.regs.set Config.spIndex v := rfl
@[simp] theorem setSp_flags (v : Byte) : (s.setSp v).flags = s.flags := rfl
@[simp] theorem setSp_pc (v : Byte) : (s.setSp v).pc = s.pc := rfl
@[simp] theorem setSp_mem (v : Byte) : (s.setSp v).mem = s.mem := rfl
@[simp] theorem setSp_status (v : Byte) : (s.setSp v).status = s.status := rfl
@[simp] theorem setSp_out (v : Byte) : (s.setSp v).out = s.out := rfl

/-! `setPc` -/

@[simp] theorem setPc_regs (t : Nat) : (s.setPc t).regs = s.regs := rfl
@[simp] theorem setPc_flags (t : Nat) : (s.setPc t).flags = s.flags := rfl
@[simp] theorem setPc_pc (t : Nat) : (s.setPc t).pc = t := rfl
@[simp] theorem setPc_mem (t : Nat) : (s.setPc t).mem = s.mem := rfl
@[simp] theorem setPc_status (t : Nat) : (s.setPc t).status = s.status := rfl
@[simp] theorem setPc_out (t : Nat) : (s.setPc t).out = s.out := rfl

/-! `advance` -/

@[simp] theorem advance_regs (n : Nat) : (s.advance n).regs = s.regs := rfl
@[simp] theorem advance_flags (n : Nat) : (s.advance n).flags = s.flags := rfl
@[simp] theorem advance_pc (n : Nat) : (s.advance n).pc = s.pc + 1 + n := rfl
@[simp] theorem advance_mem (n : Nat) : (s.advance n).mem = s.mem := rfl
@[simp] theorem advance_status (n : Nat) : (s.advance n).status = s.status := rfl
@[simp] theorem advance_out (n : Nat) : (s.advance n).out = s.out := rfl

/-! `emit` -/

@[simp] theorem emit_regs (v : Byte) : (s.emit v).regs = s.regs := rfl
@[simp] theorem emit_flags (v : Byte) : (s.emit v).flags = s.flags := rfl
@[simp] theorem emit_pc (v : Byte) : (s.emit v).pc = s.pc := rfl
@[simp] theorem emit_mem (v : Byte) : (s.emit v).mem = s.mem := rfl
@[simp] theorem emit_status (v : Byte) : (s.emit v).status = s.status := rfl
@[simp] theorem emit_out (v : Byte) : (s.emit v).out = s.out ++ [v] := rfl

/-! `store` -/

@[simp] theorem store_regs (a : Nat) (v : Byte) : (s.store a v).regs = s.regs := rfl
@[simp] theorem store_flags (a : Nat) (v : Byte) : (s.store a v).flags = s.flags := rfl
@[simp] theorem store_pc (a : Nat) (v : Byte) : (s.store a v).pc = s.pc := rfl
@[simp] theorem store_mem (a : Nat) (v : Byte) : (s.store a v).mem = s.mem.store a v := rfl
@[simp] theorem store_status (a : Nat) (v : Byte) : (s.store a v).status = s.status := rfl
@[simp] theorem store_out (a : Nat) (v : Byte) : (s.store a v).out = s.out := rfl

/-! `halt` -/

@[simp] theorem halt_regs : s.halt.regs = s.regs := rfl
@[simp] theorem halt_flags : s.halt.flags = s.flags := rfl
@[simp] theorem halt_pc : s.halt.pc = s.pc := rfl
@[simp] theorem halt_mem : s.halt.mem = s.mem := rfl
@[simp] theorem halt_status : s.halt.status = .halted := rfl
@[simp] theorem halt_out : s.halt.out = s.out := rfl

/-! `raise` -/

@[simp] theorem raise_regs (c : FaultCause) : (s.raise c).regs = s.regs := rfl
@[simp] theorem raise_flags (c : FaultCause) : (s.raise c).flags = s.flags := rfl
@[simp] theorem raise_pc (c : FaultCause) : (s.raise c).pc = s.pc := rfl
@[simp] theorem raise_mem (c : FaultCause) : (s.raise c).mem = s.mem := rfl
@[simp] theorem raise_status (c : FaultCause) : (s.raise c).status = .faulted ⟨s.pc, c⟩ := rfl
@[simp] theorem raise_out (c : FaultCause) : (s.raise c).out = s.out := rfl

/-! Reading registers -/

@[simp] theorem reg_setReg_same (r : RegIdx) (v : Byte) : (s.setReg r v).reg r = v := by
  simp [State.reg, State.setReg]

theorem reg_setReg_other {r q : RegIdx} (v : Byte) (h : q ≠ r) : (s.setReg r v).reg q = s.reg q := by
  have : r.val ≠ q.val := fun e => h (Fin.ext e.symm)
  simp [State.reg, State.setReg, Vector.getElem_set_ne, this]

theorem reg_setReg (r q : RegIdx) (v : Byte) : (s.setReg r v).reg q = if q = r then v else s.reg q := by
  by_cases h : q = r
  · subst h; simp
  · simp [h, reg_setReg_other]

@[simp] theorem reg_setSp (q : RegIdx) (v : Byte) :
    (s.setSp v).reg q = if q = Config.spIndex then v else s.reg q := reg_setReg s _ q v

@[simp] theorem sp_setSp (v : Byte) : (s.setSp v).sp = v := by simp [State.sp]

@[simp] theorem setPc_reg (t : Nat) (q : RegIdx) : (s.setPc t).reg q = s.reg q := rfl
@[simp] theorem setPc_sp (t : Nat) : (s.setPc t).sp = s.sp := rfl
@[simp] theorem advance_reg (n : Nat) (q : RegIdx) : (s.advance n).reg q = s.reg q := rfl
@[simp] theorem advance_sp (n : Nat) : (s.advance n).sp = s.sp := rfl
@[simp] theorem emit_reg (v : Byte) (q : RegIdx) : (s.emit v).reg q = s.reg q := rfl
@[simp] theorem emit_sp (v : Byte) : (s.emit v).sp = s.sp := rfl
@[simp] theorem store_reg (a : Nat) (v : Byte) (q : RegIdx) : (s.store a v).reg q = s.reg q := rfl
@[simp] theorem store_sp (a : Nat) (v : Byte) : (s.store a v).sp = s.sp := rfl
@[simp] theorem halt_reg (q : RegIdx) : s.halt.reg q = s.reg q := rfl
@[simp] theorem halt_sp : s.halt.sp = s.sp := rfl
@[simp] theorem raise_reg (c : FaultCause) (q : RegIdx) : (s.raise c).reg q = s.reg q := rfl
@[simp] theorem raise_sp (c : FaultCause) : (s.raise c).sp = s.sp := rfl

/-- Two states with the same fields are the same state. -/
theorem state_ext {s t : State} (regs : s.regs = t.regs) (flags : s.flags = t.flags) (pc : s.pc = t.pc)
    (mem : s.mem = t.mem) (status : s.status = t.status) (out : s.out = t.out) : s = t := by
  cases s; cases t; simp_all

end Sys2Proof.Machine
end

