-- ==== Sys2Proof/Laws/Ops.lean ====
section
/-! SUPPORT. One lemma per shared operation that says everything it can do. -/

namespace Sys2Proof.Machine

/-! ### Checks -/

@[simp] theorem check_ok {α : Type} (s : State) (x : α) (go : α → Result) : s.check (.ok x) go = go x := rfl

@[simp] theorem check_error {α : Type} (s : State) (c : FaultCause) (go : α → Result) :
    s.check (.error c) go = .next (s.raise c) := rfl

/-- What a check that ends in a next state did: it passed and the rest ran, or it raised from `s`. -/
theorem check_next {α : Type} {s t : State} {c : Except FaultCause α} {go : α → Result}
    (h : s.check c go = .next t) :
    (∃ x, c = .ok x ∧ go x = .next t) ∨ (∃ cause, c = .error cause ∧ t = s.raise cause) := by
  cases c with
  | ok x => exact .inl ⟨x, rfl, h⟩
  | error cause => cases h; exact .inr ⟨cause, rfl, rfl⟩

/-- A check answers a next state when its continuation does. -/
theorem check_answers {α : Type} {s : State} {c : Except FaultCause α} {go : α → Result}
    (h : ∀ x, ∃ t, go x = .next t) : ∃ t, s.check c go = .next t := by
  cases c with
  | ok x => exact h x
  | error cause => exact ⟨_, rfl⟩

/-! ### Operands -/

theorem regOperand_of_lt {opcode operand : Byte} (h : operand.toNat < 8) :
    regOperand opcode operand = .ok ⟨operand.toNat, h⟩ := by simp [regOperand, h]

theorem regOperand_of_ge {opcode operand : Byte} (h : 8 ≤ operand.toNat) :
    regOperand opcode operand = .error (.registerIndex operand opcode) := by
  simp [regOperand, Nat.not_lt.mpr h]

/-- A register operand that answers a register answers the one it numbers. -/
theorem regOperand_ok {opcode operand : Byte} {r : RegIdx} (h : regOperand opcode operand = .ok r) :
    r.val = operand.toNat := by
  unfold regOperand at h
  split at h <;> cases h
  rfl

/-- A register operand's only fault. -/
theorem regOperand_error {opcode operand : Byte} {c : FaultCause} (h : regOperand opcode operand = .error c) :
    8 ≤ operand.toNat ∧ c = .registerIndex operand opcode := by
  unfold regOperand at h
  split at h <;> cases h
  exact ⟨by omega, rfl⟩

/-! ### The ALU -/

@[simp] theorem aluRequest_add : aluRequest Opcode.add = .ok .add := by decide
@[simp] theorem aluRequest_mul : aluRequest Opcode.mul = .ok .mul := by decide
@[simp] theorem aluRequest_cmp : aluRequest Opcode.cmp = .ok .cmp := by decide

/-! ### The stack -/

/-- Everything the checks of a push can do. -/
theorem pushSlot_cases (opcode : Byte) (s : State) :
    (s.sp = 0 ∧ pushSlot opcode s = .error (.stackOverflow s.sp opcode)) ∨
    (s.sp ≠ 0 ∧ s.mem.size ≤ (s.sp - 1).toNat ∧
      pushSlot opcode s = .error (.memoryBounds (s.sp - 1).toNat)) ∨
    (s.sp ≠ 0 ∧ (s.sp - 1).toNat < s.mem.size ∧ pushSlot opcode s = .ok (s.sp - 1)) := by
  by_cases h : s.sp = 0
  · exact .inl ⟨h, by simp [pushSlot, h]⟩
  · rcases Nat.lt_or_ge (s.sp - 1).toNat s.mem.size with hb | hb
    · exact .inr (.inr ⟨h, hb, by simp only [pushSlot, if_neg h, Memory.checkBounds_of_lt hb]⟩)
    · exact .inr (.inl ⟨h, hb, by simp only [pushSlot, if_neg h, Memory.checkBounds_of_ge hb]⟩)

/-- The decremented stack pointer as a number. -/
theorem toNat_sub_one {v : Byte} (h : v ≠ 0) : (v - 1).toNat = v.toNat - 1 := by
  have : v.toNat ≠ 0 := fun e => h (BitVec.eq_of_toNat_eq (by simpa using e))
  bv_omega

/-- Everything the checks of a pop up to its read can do. -/
theorem popByte_cases (opcode : Byte) (s : State) :
    (s.sp = Config.spInit ∧ popByte opcode s = .error (.stackUnderflow s.sp opcode)) ∨
    (s.sp ≠ Config.spInit ∧ s.mem.size ≤ s.sp.toNat ∧
      popByte opcode s = .error (.memoryBounds s.sp.toNat)) ∨
    (s.sp ≠ Config.spInit ∧ s.sp.toNat < s.mem.size ∧
      popByte opcode s = .ok (lookupCell s.sp.toNat s.mem.cells)) := by
  by_cases h : s.sp = Config.spInit
  · exact .inl ⟨h, by simp [popByte, h]⟩
  · rcases Nat.lt_or_ge s.sp.toNat s.mem.size with hb | hb
    · exact .inr (.inr ⟨h, hb, by simp [popByte, h, Memory.read_of_lt hb]⟩)
    · exact .inr (.inl ⟨h, hb, by simp [popByte, h, Memory.read_of_ge hb]⟩)

/-- A pop's byte is what the memory reads at SP. -/
theorem popByte_ok {opcode v : Byte} {s : State} (h : popByte opcode s = .ok v) :
    s.sp ≠ Config.spInit ∧ s.mem.read s.sp.toNat = .ok v := by
  unfold popByte at h
  split at h
  · cases h
  · exact ⟨‹_›, h⟩

/-- Everything the last check of a pop can do. -/
theorem checkIncrement_cases (opcode : Byte) (s : State) (x : Byte) :
    (x = 0xFF ∧ checkIncrement opcode s x = .error (.stackUnderflow s.sp opcode)) ∨
    (x ≠ 0xFF ∧ checkIncrement opcode s x = .ok ()) := by
  by_cases h : x = 0xFF
  · exact .inl ⟨h, by simp [checkIncrement, h]⟩
  · exact .inr ⟨h, by simp only [checkIncrement, if_neg h]⟩

/-- Everything the return-address check can do. -/
theorem returnAddress_cases (p : Nat) :
    (p + 2 ≤ 255 ∧ returnAddress p = .ok (BitVec.ofNat 8 (p + 2))) ∨
    (255 < p + 2 ∧ returnAddress p = .error (.memoryBounds (p + 2))) := by
  rcases Nat.lt_or_ge 255 (p + 2) with h | h
  · exact .inr ⟨h, by simp [returnAddress]; omega⟩
  · exact .inl ⟨h, by simp [returnAddress]; omega⟩

/-! ### The flags -/

/-- A comparison never clears a flag (10_state.md R25). -/
theorem compare_keeps (f : Flags) (x y : Byte) :
    (f.e = true → (f.compare x y).e = true) ∧ (f.l = true → (f.compare x y).l = true) ∧
      (f.g = true → (f.compare x y).g = true) := by
  unfold Flags.compare
  split
  · simp
  · split <;> simp

end Sys2Proof.Machine
end

