-- ==== Sys2Proof/Laws/Exec.lean ====
section
/-! SUPPORT. What each instruction can do, said once: its effect with the facts its checks established, or a fault
taken from the state before it. -/

namespace Sys2Proof.Machine

/-- `t` is `s` with a fault taken that is not the ALU's unreachable one. -/
def RaisedFrom (s t : State) : Prop := ∃ cause, cause ≠ .aluUnsupported ∧ t = s.raise cause

theorem raisedFrom_regOperand {opcode operand : Byte} {c : FaultCause} {s t : State}
    (h : regOperand opcode operand = .error c) (e : t = s.raise c) : RaisedFrom s t := by
  obtain ⟨-, rfl⟩ := regOperand_error h
  exact ⟨_, by simp, e⟩

theorem raisedFrom_pushSlot {opcode : Byte} {c : FaultCause} {s t : State}
    (h : pushSlot opcode s = .error c) (e : t = s.raise c) : RaisedFrom s t := by
  rcases pushSlot_cases opcode s with ⟨-, k⟩ | ⟨-, -, k⟩ | ⟨-, -, k⟩ <;> rw [k] at h <;> cases h <;>
    exact ⟨_, by simp, e⟩

theorem raisedFrom_popByte {opcode : Byte} {c : FaultCause} {s t : State}
    (h : popByte opcode s = .error c) (e : t = s.raise c) : RaisedFrom s t := by
  rcases popByte_cases opcode s with ⟨-, k⟩ | ⟨-, -, k⟩ | ⟨-, -, k⟩ <;> rw [k] at h <;> cases h <;>
    exact ⟨_, by simp, e⟩

theorem raisedFrom_checkIncrement {opcode x : Byte} {c : FaultCause} {s t : State}
    (h : checkIncrement opcode s x = .error c) (e : t = s.raise c) : RaisedFrom s t := by
  rcases checkIncrement_cases opcode s x with ⟨-, k⟩ | ⟨-, k⟩ <;> rw [k] at h <;> cases h
  exact ⟨_, by simp, e⟩

theorem raisedFrom_returnAddress {p : Nat} {c : FaultCause} {s t : State}
    (h : returnAddress p = .error c) (e : t = s.raise c) : RaisedFrom s t := by
  rcases returnAddress_cases p with ⟨-, k⟩ | ⟨-, k⟩ <;> rw [k] at h <;> cases h
  exact ⟨_, by simp, e⟩

/-- What an instruction that hands two registers to the ALU can do. -/
theorem execAlu_next {opcode a b : Byte} {op : AluOp} {s t : State} (known : aluRequest opcode = .ok op)
    (h : execAlu opcode a b s = .next t) :
    (∃ ra rb : RegIdx, ra.val = a.toNat ∧ rb.val = b.toNat ∧ t = (aluApply op ra rb s).advance 2) ∨
      RaisedFrom s t := by
  rcases check_next h with ⟨ra, ha, h⟩ | ⟨c, hc, e⟩
  · rcases check_next h with ⟨rb, hb, h⟩ | ⟨c, hc, e⟩
    · rw [known] at h
      cases h
      exact .inl ⟨ra, rb, regOperand_ok ha, regOperand_ok hb, rfl⟩
    · exact .inr (raisedFrom_regOperand hc e)
  · exact .inr (raisedFrom_regOperand hc e)

theorem execAdd_next {a b : Byte} {s t : State} (h : exec (.add a b) s = .next t) :
    (∃ ra rb : RegIdx, ra.val = a.toNat ∧ rb.val = b.toNat ∧
      t = (s.setReg ra (aluAdd (s.reg ra) (s.reg rb))).advance 2) ∨ RaisedFrom s t :=
  execAlu_next aluRequest_add h

theorem execMul_next {a b : Byte} {s t : State} (h : exec (.mul a b) s = .next t) :
    (∃ ra rb : RegIdx, ra.val = a.toNat ∧ rb.val = b.toNat ∧
      t = (s.setReg ra (aluMul (s.reg ra) (s.reg rb))).advance 2) ∨ RaisedFrom s t :=
  execAlu_next aluRequest_mul h

theorem execCmp_next {a b : Byte} {s t : State} (h : exec (.cmp a b) s = .next t) :
    (∃ ra rb : RegIdx, ra.val = a.toNat ∧ rb.val = b.toNat ∧
      t = ({ s with flags := s.flags.compare (s.reg ra) (s.reg rb) } : State).advance 2) ∨ RaisedFrom s t :=
  execAlu_next aluRequest_cmp h

theorem execHlt_next {s t : State} (h : exec .hlt s = .next t) : t = s.halt.advance 0 := by
  cases h; rfl

theorem execLdi_next {a b : Byte} {s t : State} (h : exec (.ldi a b) s = .next t) :
    (∃ ra : RegIdx, ra.val = a.toNat ∧ t = (s.setReg ra b).advance 2) ∨ RaisedFrom s t := by
  rcases check_next h with ⟨ra, ha, h⟩ | ⟨c, hc, e⟩
  · cases h
    exact .inl ⟨ra, regOperand_ok ha, rfl⟩
  · exact .inr (raisedFrom_regOperand hc e)

theorem execPrn_next {a : Byte} {s t : State} (h : exec (.prn a) s = .next t) :
    (∃ ra : RegIdx, ra.val = a.toNat ∧ t = (s.emit (s.reg ra)).advance 1) ∨ RaisedFrom s t := by
  rcases check_next h with ⟨ra, ha, h⟩ | ⟨c, hc, e⟩
  · cases h
    exact .inl ⟨ra, regOperand_ok ha, rfl⟩
  · exact .inr (raisedFrom_regOperand hc e)

/-- What the checks of a push establish. -/
theorem pushSlot_ok {opcode slot : Byte} {s : State} (h : pushSlot opcode s = .ok slot) :
    s.sp ≠ 0 ∧ slot = s.sp - 1 ∧ (s.sp - 1).toNat < s.mem.size := by
  rcases pushSlot_cases opcode s with ⟨-, k⟩ | ⟨-, -, k⟩ | ⟨h0, hb, k⟩ <;> rw [k] at h <;> cases h
  exact ⟨h0, rfl, hb⟩

theorem execPush_next {a : Byte} {s t : State} (h : exec (.push a) s = .next t) :
    (∃ ra : RegIdx, ra.val = a.toNat ∧ s.sp ≠ 0 ∧ (s.sp - 1).toNat < s.mem.size ∧
      t = ((s.setSp (s.sp - 1)).store (s.sp - 1).toNat ((s.setSp (s.sp - 1)).reg ra)).advance 1) ∨
      RaisedFrom s t := by
  rcases check_next h with ⟨ra, ha, h⟩ | ⟨c, hc, e⟩
  · rcases check_next h with ⟨slot, hs, h⟩ | ⟨c, hc, e⟩
    · obtain ⟨h0, rfl, hb⟩ := pushSlot_ok hs
      cases h
      exact .inl ⟨ra, regOperand_ok ha, h0, hb, rfl⟩
    · exact .inr (raisedFrom_pushSlot hc e)
  · exact .inr (raisedFrom_regOperand hc e)

theorem execPop_next {a : Byte} {s t : State} (h : exec (.pop a) s = .next t) :
    (∃ (ra : RegIdx) (v : Byte), ra.val = a.toNat ∧ s.sp ≠ Config.spInit ∧ s.mem.read s.sp.toNat = .ok v ∧
      (if ra = Config.spIndex then v else s.sp) ≠ 0xFF ∧
      t = ((s.setReg ra v).setSp ((s.setReg ra v).sp + 1)).advance 1) ∨ RaisedFrom s t := by
  rcases check_next h with ⟨ra, ha, h⟩ | ⟨c, hc, e⟩
  · rcases check_next h with ⟨v, hv, h⟩ | ⟨c, hc, e⟩
    · rcases check_next h with ⟨u, hu, h⟩ | ⟨c, hc, e⟩
      · cases h
        refine .inl ⟨ra, v, regOperand_ok ha, (popByte_ok hv).1, (popByte_ok hv).2, ?_, rfl⟩
        rcases checkIncrement_cases Opcode.pop s (if ra = Config.spIndex then v else s.sp) with ⟨-, k⟩ | ⟨hne, -⟩
        · rw [k] at hu; cases hu
        · exact hne
      · exact .inr (raisedFrom_checkIncrement hc e)
    · exact .inr (raisedFrom_popByte hc e)
  · exact .inr (raisedFrom_regOperand hc e)

theorem execCall_next {a : Byte} {s t : State} (h : exec (.call a) s = .next t) :
    (∃ ra : RegIdx, ra.val = a.toNat ∧ s.sp ≠ 0 ∧ (s.sp - 1).toNat < s.mem.size ∧ s.pc + 2 ≤ 255 ∧
      t = ((s.setSp (s.sp - 1)).store (s.sp - 1).toNat (BitVec.ofNat 8 (s.pc + 2))).setPc
        ((s.setSp (s.sp - 1)).reg ra).toNat) ∨ RaisedFrom s t := by
  rcases check_next h with ⟨ra, ha, h⟩ | ⟨c, hc, e⟩
  · rcases check_next h with ⟨slot, hs, h⟩ | ⟨c, hc, e⟩
    · rcases check_next h with ⟨back, hr, h⟩ | ⟨c, hc, e⟩
      · obtain ⟨h0, rfl, hb⟩ := pushSlot_ok hs
        rcases returnAddress_cases s.pc with ⟨hp, k⟩ | ⟨-, k⟩ <;> rw [k] at hr <;> cases hr
        cases h
        exact .inl ⟨ra, regOperand_ok ha, h0, hb, hp, rfl⟩
      · exact .inr (raisedFrom_returnAddress hc e)
    · exact .inr (raisedFrom_pushSlot hc e)
  · exact .inr (raisedFrom_regOperand hc e)

theorem execRet_next {s t : State} (h : exec .ret s = .next t) :
    (∃ v : Byte, s.sp ≠ Config.spInit ∧ s.mem.read s.sp.toNat = .ok v ∧ s.sp ≠ 0xFF ∧
      t = (s.setPc v.toNat).setSp (s.sp + 1)) ∨ RaisedFrom s t := by
  rcases check_next h with ⟨v, hv, h⟩ | ⟨c, hc, e⟩
  · rcases check_next h with ⟨u, hu, h⟩ | ⟨c, hc, e⟩
    · cases h
      refine .inl ⟨v, (popByte_ok hv).1, (popByte_ok hv).2, ?_, rfl⟩
      rcases checkIncrement_cases Opcode.ret s s.sp with ⟨-, k⟩ | ⟨hne, -⟩
      · rw [k] at hu; cases hu
      · exact hne
    · exact .inr (raisedFrom_checkIncrement hc e)
  · exact .inr (raisedFrom_popByte hc e)

/-- What a jump through a register can do. -/
theorem execJump_next {opcode a : Byte} {taken : Bool} {s t : State} (h : execJump opcode a taken s = .next t) :
    (∃ ra : RegIdx, ra.val = a.toNat ∧ t = if taken then s.setPc (s.reg ra).toNat else s.advance 1) ∨
      RaisedFrom s t := by
  rcases check_next h with ⟨ra, ha, h⟩ | ⟨c, hc, e⟩
  · cases h
    exact .inl ⟨ra, regOperand_ok ha, rfl⟩
  · exact .inr (raisedFrom_regOperand hc e)

/-! ### The cycle -/

/-- What a step that answers a next state was: a fetch fault, an unknown opcode, or the fetched instruction run. -/
theorem step_next {s t : State} (h : step s = .next t) :
    s.status = .running ∧
      ((∃ c, fetch s = .error c ∧ t = s.raise c) ∨
       (∃ ir, fetch s = .ok ir ∧
         ((∃ r, decode (ir.opcode :: ir.operands) = .error r ∧ t = s.raise (.decode ir.opcode)) ∨
          (∃ i rest, decode (ir.opcode :: ir.operands) = .ok (i, rest) ∧ exec i s = .next t)))) := by
  unfold step at h
  split at h
  · cases h
  · cases h
  · refine ⟨‹_›, ?_⟩
    rcases check_next h with ⟨ir, hf, h⟩ | ⟨c, hc, e⟩
    · refine .inr ⟨ir, hf, ?_⟩
      split at h
      · exact .inr ⟨_, _, ‹_›, h⟩
      · cases h
        exact .inl ⟨_, ‹_›, rfl⟩
    · exact .inl ⟨c, hc, e⟩

/-- What a fetch that answers has read. -/
theorem fetch_ok {s : State} {ir : Fetched} (h : fetch s = .ok ir) :
    s.mem.read s.pc = .ok ir.opcode ∧ s.mem.readSeq (s.pc + 1) (operandCount ir.opcode) = .ok ir.operands := by
  unfold fetch at h
  split at h
  · cases h
  · rename_i opcode ho
    split at h <;> cases h
    exact ⟨ho, ‹_›⟩

/-- A fetch whose opcode and operand bytes all read. -/
theorem fetch_of_reads {s : State} {opcode : Byte} {operands : List Byte} (ho : s.mem.read s.pc = .ok opcode)
    (hs : s.mem.readSeq (s.pc + 1) (operandCount opcode) = .ok operands) : fetch s = .ok ⟨opcode, operands⟩ := by
  simp [fetch, ho, hs]

/-- The bytes a fetch read lie in memory: pc and the operands after it. -/
theorem fetch_in_range {s : State} {ir : Fetched} (h : fetch s = .ok ir) :
    ir.operands.length = operandCount ir.opcode ∧ s.pc + 1 + operandCount ir.opcode ≤ s.mem.size := by
  obtain ⟨ho, hs⟩ := fetch_ok h
  obtain ⟨hl, hb⟩ := Memory.readSeq_ok _ _ _ _ hs
  have := Memory.lt_of_read ho
  exact ⟨hl, by omega⟩

/-- A reachability induction: what holds at the start and survives every step holds at the end. -/
theorem reaches_induction {P : State → Prop} {s t : State} (h : Reaches s t) (start : P s)
    (keeps : ∀ u v, P u → step u = .next v → P v) : P t := by
  induction h with
  | refl => exact start
  | tail _ last ih => exact keeps _ _ ih last

end Sys2Proof.Machine
end

