-- ==== Sys2Proof/Laws/PerInstr.lean ====
section
/-! SUPPORT. Facts about each instruction as syntax, one lemma a constructor. -/

namespace Sys2Proof.Laws.EncodingLength

/-- An instruction's bytes are its opcode and as many operand bytes as the opcode's top two bits say
(30_encoding.md R56, R57). -/
def Statement (i : Instr) : Prop := (encode i).length = 1 + operandCount ((encode i).headD 0)

theorem hlt : Statement .hlt := by simp [Statement, encode]
theorem ldi (a b : Byte) : Statement (.ldi a b) := by simp [Statement, encode]
theorem prn (a : Byte) : Statement (.prn a) := by simp [Statement, encode]
theorem add (a b : Byte) : Statement (.add a b) := by simp [Statement, encode]
theorem mul (a b : Byte) : Statement (.mul a b) := by simp [Statement, encode]
theorem push (a : Byte) : Statement (.push a) := by simp [Statement, encode]
theorem pop (a : Byte) : Statement (.pop a) := by simp [Statement, encode]
theorem call (a : Byte) : Statement (.call a) := by simp [Statement, encode]
theorem ret : Statement .ret := by simp [Statement, encode]
theorem cmp (a b : Byte) : Statement (.cmp a b) := by simp [Statement, encode]
theorem jmp (a : Byte) : Statement (.jmp a) := by simp [Statement, encode]
theorem jeq (a : Byte) : Statement (.jeq a) := by simp [Statement, encode]
theorem jne (a : Byte) : Statement (.jne a) := by simp [Statement, encode]

end Sys2Proof.Laws.EncodingLength
end

