-- ==== Sys2Proof/Tests/Slice0.lean ====
section
/-! SUPPORT. Tests with expected results from spec/95_test_vectors.md and the encodings of 30_encoding.md, the checks of
WellFormed, and for every obligation with hypotheses a state and operands that meet them. -/

namespace Sys2Proof.Tests

open Sys2Proof Sys2Proof.Machine Sys2Proof.Claim

/-- A reset machine with bytes at `p` and pc there. -/
def start (p : Nat) (bytes : List Byte) : State :=
  { State.reset with mem := State.reset.mem.place p bytes, pc := p }

/-- The same with 16 bytes of memory. -/
def start16 (p : Nat) (bytes : List Byte) : State :=
  { State.resetWith 16 with mem := (State.resetWith 16).mem.place p bytes, pc := p }

/-- The next state, if there is one. -/
def after : Result → Option State
  | .next t => some t
  | .fault _ => none
  | .refused _ => none

/-- What the next state shows. -/
def see {α : Type} (o : Result) (f : State → α) : Option α := (after o).map f

/-! ### WellFormed: one ill-formed term for each check -/

theorem test_wellFormed_accepts : Instr.wellFormed (.add 7 0) = true := by decide
theorem test_wellFormed_ldi_immediate_unchecked : Instr.wellFormed (.ldi 7 255) = true := by decide
theorem test_wellFormed_refuses_ldi : Instr.wellFormed (.ldi 8 0) = false := by decide
theorem test_wellFormed_refuses_prn : Instr.wellFormed (.prn 8) = false := by decide
theorem test_wellFormed_refuses_add_a : Instr.wellFormed (.add 8 0) = false := by decide
theorem test_wellFormed_refuses_add_b : Instr.wellFormed (.add 0 8) = false := by decide
theorem test_wellFormed_refuses_mul_a : Instr.wellFormed (.mul 255 0) = false := by decide
theorem test_wellFormed_refuses_mul_b : Instr.wellFormed (.mul 0 255) = false := by decide
theorem test_wellFormed_refuses_push : Instr.wellFormed (.push 8) = false := by decide
theorem test_wellFormed_refuses_pop : Instr.wellFormed (.pop 8) = false := by decide
theorem test_wellFormed_refuses_call : Instr.wellFormed (.call 8) = false := by decide
theorem test_wellFormed_refuses_cmp_a : Instr.wellFormed (.cmp 8 0) = false := by decide
theorem test_wellFormed_refuses_cmp_b : Instr.wellFormed (.cmp 0 200) = false := by decide
theorem test_wellFormed_refuses_jmp : Instr.wellFormed (.jmp 8) = false := by decide
theorem test_wellFormed_refuses_jeq : Instr.wellFormed (.jeq 9) = false := by decide
theorem test_wellFormed_refuses_jne : Instr.wellFormed (.jne 128) = false := by decide

/-! ### Decoding: every constructor by a word written from 30_encoding.md R63, and the rejections -/

theorem test_decode_hlt : decode [0b00000001] = .ok (.hlt, []) := by rfl
theorem test_decode_ldi : decode [0b10000010, 0b00000101, 0b11111111] = .ok (.ldi 5 255, []) := by rfl
theorem test_decode_prn : decode [0b01000111, 0b00000110] = .ok (.prn 6, []) := by rfl
theorem test_decode_add : decode [0b10100000, 0b00000010, 0b00000101] = .ok (.add 2 5, []) := by rfl
theorem test_decode_mul : decode [0b10100010, 0b00000010, 0b00000101] = .ok (.mul 2 5, []) := by rfl
theorem test_decode_push : decode [0b01000101, 0b00000011] = .ok (.push 3, []) := by rfl
theorem test_decode_pop : decode [0b01000110, 0b00000011] = .ok (.pop 3, []) := by rfl
theorem test_decode_call : decode [0b01010000, 0b00000001] = .ok (.call 1, []) := by rfl
theorem test_decode_ret : decode [0b00010001] = .ok (.ret, []) := by rfl
theorem test_decode_cmp : decode [0b10100111, 0b00000010, 0b00000101] = .ok (.cmp 2 5, []) := by rfl
theorem test_decode_jmp : decode [0b01010100, 0b00000100] = .ok (.jmp 4, []) := by rfl
theorem test_decode_jeq : decode [0b01010101, 0b00000100] = .ok (.jeq 4, []) := by rfl
theorem test_decode_jne : decode [0b01010110, 0b00000100] = .ok (.jne 4, []) := by rfl
theorem test_decode_leaves_rest : decode [0x01, 0x82, 0x00] = .ok (.hlt, [0x82, 0x00]) := by rfl
theorem test_decode_keeps_wide_operand : decode [0x47, 0xFF] = .ok (.prn 255, []) := by rfl
theorem test_decode_unknown : decode [0x83, 0, 0] = .error (.unknownOpcode 0x83) := by rfl
theorem test_decode_class11 : decode [0xFF, 1, 2, 3] = .error (.unknownOpcode 0xFF) := by rfl
theorem test_decode_missing : decode [0x82, 0] = .error (.missingOperands 0x82) := by rfl
theorem test_decode_empty : decode [] = .error .noOpcode := by rfl
theorem test_tableWord_ldi : decodeTableWord 24 0x080082 = some (.ldi 0 8) := by decide
theorem test_tableWord_short : decodeTableWord 8 0xFFA0 = some (.add 0 0) := by decide
theorem test_fetchWord_runs : see (step (State.reset.withFetchWord 24 0x2A0382)) (fun t => (t.reg 3, t.pc)) =
    some (0x2A, 3) := by decide

/-! ### The cycle (95_test_vectors.md 2.1) -/

/-- CY1. -/
theorem test_empty_memory_faults : see (step State.reset) State.status = some (.faulted ⟨0, .decode 0⟩) := by decide
/-- CY3. -/
theorem test_class11_fetches_three : see (step (start 0xFD [0xC0])) State.status =
    some (.faulted ⟨0xFD, .memoryBounds 0x100⟩) := by decide
/-- CY11. -/
theorem test_operand_fetch_before_register : see (step (start 0xFE [0x82, 0x09])) State.status =
    some (.faulted ⟨0xFE, .memoryBounds 0x100⟩) := by decide
/-- CY10: the last byte is at N - 1, and pc becomes N. -/
theorem test_last_byte_of_memory : see (step (start16 0x0D [0x82, 0x00, 0x05])) (fun t => (t.reg 0, t.pc)) =
    some (0x05, 16) := by decide
/-- CY12. -/
theorem test_no_step_after_halt : (after (step { start 0 [0x01] with status := .halted })).isNone = true := by decide

/-! ### Instructions (95_test_vectors.md 2.2 to 2.5) -/

/-- AL2. -/
theorem test_add_wraps : see (step (((start 0 [0xA0, 0, 1]).setReg 0 0xC8).setReg 1 0x64))
    (fun t => (t.reg 0, t.flags, t.pc)) = some (0x2C, ⟨false, false, false⟩, 3) := by decide
/-- AL7. -/
theorem test_add_checks_a_first : see (step (start 0 [0xA0, 9, 8])) State.status =
    some (.faulted ⟨0, .registerIndex 9 0xA0⟩) := by decide
/-- AL10. -/
theorem test_mul_keeps_low_byte : see (step (((start 0 [0xA2, 0, 1]).setReg 0 0xFF).setReg 1 0xFF))
    (fun t => (t.reg 0, t.pc)) = some (0x01, 3) := by decide
/-- AL12. -/
theorem test_mul_squares : see (step ((start 0 [0xA2, 3, 3]).setReg 3 0x0F)) (fun t => t.reg 3) = some 0xE1 := by decide
/-- AL18. -/
theorem test_cmp_sticky : see (step { ((start 0 [0xA7, 0, 1]).setReg 0 5).setReg 1 9 with flags := ⟨true, false, false⟩ })
    (fun t => (t.flags, t.pc)) = some (⟨true, true, false⟩, 3) := by decide
/-- AL20. -/
theorem test_cmp_unsigned : see (step (((start 0 [0xA7, 0, 1]).setReg 0 0x80).setReg 1 0x7F)) State.flags =
    some ⟨false, false, true⟩ := by decide
/-- DS6. -/
theorem test_hlt_at_end : see (step (start 0xFF [0x01])) (fun t => (t.status, t.pc)) = some (.halted, 0x100) := by decide
/-- DS3. -/
theorem test_ldi_moves_sp : see (step (start 0 [0x82, 7, 0x10])) (fun t => (t.sp, t.pc)) = some (0x10, 3) := by decide
/-- DS4. -/
theorem test_ldi_bad_register : see (step (start 0 [0x82, 8, 1])) State.status =
    some (.faulted ⟨0, .registerIndex 8 0x82⟩) := by decide
/-- DS9. -/
theorem test_prn_emits : see (step ((start 0 [0x47, 0]).setReg 0 0xFF)) (fun t => (t.out, t.pc)) =
    some ([255], 2) := by decide
/-- DS10. -/
theorem test_prn_bad_register : see (step (start 0 [0x47, 8])) State.out = some [] := by decide
/-- ST5. -/
theorem test_push_sp : see (step (start 0 [0x45, 7])) (fun t => (t.sp, lookupCell 0xF3 t.mem.cells)) =
    some (0xF3, 0xF3) := by decide
/-- ST11. -/
theorem test_push_out_of_memory : see (step (start16 0 [0x45, 0])) State.status =
    some (.faulted ⟨0, .memoryBounds 0xF3⟩) := by decide
/-- ST9. -/
theorem test_pop_sp : see (step (((start 0 [0x46, 7]).setSp 0xF3).store 0xF3 0x20)) State.sp = some 0x21 := by decide
/-- ST10. -/
theorem test_pop_sp_past_ff : see (step (((start 0 [0x46, 7]).setSp 0xF3).store 0xF3 0xFF)) State.status =
    some (.faulted ⟨0, .stackUnderflow 0xF3 0x46⟩) := by decide
/-- CT6. -/
theorem test_call_sp : see (step (start 0x0A [0x50, 7])) (fun t => (t.sp, lookupCell 0xF3 t.mem.cells, t.pc)) =
    some (0xF3, 0x0C, 0xF3) := by decide
/-- CT4. -/
theorem test_call_return_address : see (step (start 0xFE [0x50, 0])) (fun t => (t.status, t.sp)) =
    some (.faulted ⟨0xFE, .memoryBounds 0x100⟩, 0xF4) := by decide
/-- CT2. -/
theorem test_ret : see (step (((start 0x0B [0x11]).setSp 0xF3).store 0xF3 5)) (fun t => (t.pc, t.sp)) =
    some (5, 0xF4) := by decide
/-- CT16. -/
theorem test_ret_past_ff : see (step (((start 0 [0x11]).setSp 0xFF).store 0xFF 3)) State.status =
    some (.faulted ⟨0, .stackUnderflow 0xFF 0x11⟩) := by decide
/-- CT15, its first step. -/
theorem test_jmp_out_of_memory : see (step ((start16 0 [0x54, 0]).setReg 0 0x20)) (fun t => (t.pc, t.status)) =
    some (0x20, .running) := by decide
/-- CT10. -/
theorem test_jeq_not_taken : see (step ((start 0x0C [0x55, 2]).setReg 2 0x11)) State.pc = some 0x0E := by decide
/-- CT13. -/
theorem test_jeq_checks_register : see (step (start 0x0C [0x55, 9])) State.status =
    some (.faulted ⟨0x0C, .registerIndex 9 0x55⟩) := by decide
/-- CT11. -/
theorem test_jne_taken : see (step ((start 0x14 [0x56, 3]).setReg 3 0x0C)) State.pc = some 0x0C := by decide
/-- CT14. -/
theorem test_jne_reads_only_e : see (step { (start 0x14 [0x56, 3]).setReg 3 0x0C with flags := ⟨true, true, false⟩ })
    State.pc = some 0x16 := by decide

/-! ### The host's text (95_test_vectors.md DS7 to DS9, W9) -/

theorem test_render_lines : renderOut [17, 0, 255] =
    ['1', '7', '\n', '0', '\n', '2', '5', '5', '\n'] := by decide
theorem test_line_with_comment : parseLine ['1', '0', '0', '0', '0', '0', '1', '0', ' ', '#', ' ', 'L'] =
    .ok (some 0x82) := by rfl
theorem test_line_blank : parseLine [' ', '\t', '#', '1'] = .ok none := by rfl
theorem test_line_blanks_around : parseLine [' ', ' ', '0', '0', '0', '0', '0', '0', '0', '1', '\t', '\r'] =
    .ok (some 1) := by rfl
theorem test_line_too_short : parseLine ['1', '0', '0', '0', '0', '0', '1'] = .error .malformedLine := by rfl
theorem test_line_bad_digit : parseLine ['1', '0', '0', '0', '0', '0', '1', 'x'] = .error .malformedLine := by rfl
theorem test_line_space_inside : parseLine ['0', '0', '0', '0', ' ', '0', '0', '0', '1'] =
    .error .malformedLine := by rfl
theorem test_second_line_malformed :
    loadText ['0', '0', '0', '0', '0', '0', '0', '1', '\n', '2', '\n'] State.reset = .error .malformedLine := by rfl
theorem test_empty_file : parseProgram [] = .ok [] := by rfl

/-! ### Witnesses: each obligation's hypotheses are met, clause by clause -/

theorem witness_DecodedBytesAreTheEncoding : decode [0x82, 5, 200, 1] = .ok (.ldi 5 200, [1]) := by rfl

/-- The class 11 opcode at the last address whose operand bytes fit, and the one-byte opcode 0 at address N - 1. -/
theorem witness_UnknownOpcodeRaisesDecodeError :
    (0xC0 ∉ validOpcodes ∧ (start 252 [0xC0]).status = .running ∧ (start 252 [0xC0]).mem.read 252 = .ok 0xC0 ∧
      252 + (0xC0 : Byte).toNat / 64 < (start 252 [0xC0]).mem.size) ∧
    (0 ∉ validOpcodes ∧ (start 255 []).mem.read 255 = .ok 0 ∧ 255 + (0 : Byte).toNat / 64 < (start 255 []).mem.size) := by
  decide

theorem witness_FetchReadsCountedOperands :
    (start 253 [0x82, 1, 2]).mem.read 253 = .ok 0x82 ∧
      253 + (0x82 : Byte).toNat / 64 < (start 253 [0x82, 1, 2]).mem.size := by decide

theorem witness_StepRunsTheDecodedInstruction :
    (start 254 [0x47, 3]).status = .running ∧ decode [0x47, 3] = .ok (.prn 3, []) ∧
      (start 254 [0x47, 3]).mem.read 254 = .ok 0x47 ∧ (start 254 [0x47, 3]).mem.read 255 = .ok 3 := by decide

theorem witness_FetchOutsideMemoryFaults :
    (start 256 []).status = .running ∧ (start 256 []).mem.size ≤ (start 256 []).pc := by decide

/-- Two bytes at the end of memory: the third byte's address is N. -/
theorem witness_OperandFetchOutsideMemoryFaults :
    (start 254 [0x82, 0]).status = .running ∧ (start 254 [0x82, 0]).mem.read 254 = .ok 0x82 ∧
      (start 254 [0x82, 0]).mem.size ≤ 254 + (0x82 : Byte).toNat / 64 := by decide

theorem witness_NoStepUnlessRunning : (after (step (start 0 [0x01]))).isSome = true := by decide

theorem witness_RunningMachineSteps : State.reset.status = .running := rfl

theorem witness_FaultedCycleChangesOnlyStatus :
    see (step (start 7 [0xC5])) State.status = some (.faulted ⟨7, .decode 0xC5⟩) := by decide

/-- A sequential instruction, then each control transfer, that ends unfaulted from a Running state. -/
theorem witness_PcSequencing :
    isSequential (.prn 0) = true ∧ see (exec (.prn 0) (start 0 [])) State.status = some .running ∧
    see (exec (.jmp 7) (start 0 [])) State.status = some .running ∧
    see (exec (.call 0) (start 253 [])) State.status = some .running ∧
    see (exec .ret ((start 0 []).setSp 0xF3)) State.status = some .running ∧
    see (exec (.jeq 7) (start 0 [])) State.status = some .running ∧
    see (exec (.jne 7) (start 0 [])) State.status = some .running := by decide

theorem witness_OnlyHltHalts : see (step (start 0 [0x01])) State.status = some .halted := by decide

theorem witness_FinalStatesNeverLeft :
    ({ State.reset with status := .halted }.status ≠ .running ∧
      Reaches { State.reset with status := .halted } { State.reset with status := .halted }) ∧
    (State.reset.raise (.decode 0)).status ≠ .running ∧
      Reaches (State.reset.raise (.decode 0)) (State.reset.raise (.decode 0)) := by
  exact ⟨⟨by decide, .refl _⟩, by decide, .refl _⟩

/-- In range at the last address, and out of range at the first one past it. -/
theorem witness_MemoryPortsReadAndWrite :
    State.reset.mem.wf ∧ 255 < State.reset.mem.size ∧ State.reset.mem.size ≤ 256 := by decide

/-- A program that fills memory to its last byte, in a machine of three bytes. -/
theorem witness_ResetState : (2 : Nat) < 3 ∧ (match load [1, 2, 3] (State.resetWith 3) with
    | .ok _ => true
    | .error _ => false) = true := by decide

theorem witness_LoadPlacesProgram :
    ([1, 2, 3] : List Byte).length ≤ 4 ∧ ([1, 2, 3] : List Byte).length ≤ 3 ∧ 3 < 4 ∧
      2 < ([1, 2, 3] : List Byte).length ∧ parseProgram ['2'] = .error .malformedLine := by
  exact ⟨by decide, by decide, by decide, by decide, rfl⟩

/-- For AddResult, MulResult and CmpResult: the largest register number, and the smallest operand that is none, as
either operand. -/
theorem witness_AddMulCmpOperands :
    (7 : Byte).toNat < 8 ∧ 8 ≤ (8 : Byte).toNat := by decide

/-- Equal (an operand with itself), less by one, and with the operands exchanged greater by one. -/
theorem witness_CmpResult :
    let s := ((start 0 []).setReg 0 0x7F).setReg 1 0x80
    s.regs[(0 : Byte).toNat] = s.regs[(0 : Byte).toNat] ∧
      s.regs[(0 : Byte).toNat].toNat < s.regs[(1 : Byte).toNat].toNat := by decide

theorem witness_FlagAccess :
    (∀ a b, Instr.add 0 1 ≠ .cmp a b) ∧ (after (exec (.add 0 1) State.reset)).isSome = true ∧
      (after (exec (.cmp 0 1) State.reset)).isSome = true := by
  exact ⟨by intro a b; simp, by decide, by decide⟩

theorem witness_StickyFlags :
    let s := { State.reset with flags := ⟨true, true, true⟩ }
    Reaches s s ∧ s.flags.e = true ∧ s.flags.l = true ∧ s.flags.g = true ∧ (7 : Byte).toNat < 8 := by
  exact ⟨.refl _, rfl, rfl, rfl, by decide⟩

theorem witness_AluErrorNeverRaised : (after (step (start 0 [0xA0, 0, 1]))).isSome = true := by decide

theorem witness_HltHalts : (start 255 [0x01]).status = .running ∧ (start 255 [0x01]).mem.read 255 = .ok 0x01 := by decide

/-- For LdiResult, PrnResult, JmpResult, JeqResult and JneResult: the largest register, the smallest operand that is
none, E either way, and a register that holds pc. -/
theorem witness_OneRegisterOperands :
    (7 : Byte).toNat < 8 ∧ 8 ≤ (8 : Byte).toNat ∧ State.reset.flags.e = false ∧
      { State.reset with flags := ⟨true, false, false⟩ }.flags.e = true ∧
      (start 0xF4 []).regs[(7 : Byte).toNat].toNat = (start 0xF4 []).pc := by decide

theorem witness_OutputOnlyAppended :
    Reaches State.reset State.reset ∧ see (step ((start 0 [0x47, 0]).setReg 0 9)) State.out = some [9] := by
  exact ⟨.refl _, by decide⟩

/-- SP = 1, the lowest that has a slot, and SP = 16 in a machine of 16 bytes, the highest. -/
theorem witness_PushResult :
    (let s := (start 4 []).setSp 1
     s.mem.wf ∧ s.regs[7] ≠ 0 ∧ s.regs[7].toNat - 1 < s.mem.size) ∧
    (let s := (start16 4 []).setSp 16
     s.mem.wf ∧ s.regs[7] ≠ 0 ∧ s.regs[7].toNat - 1 < s.mem.size) := by decide

/-- An operand that is no register; SP = 0; and SP = 17 in a machine of 16 bytes, the lowest slot outside it. -/
theorem witness_PushFaults :
    8 ≤ (8 : Byte).toNat ∧ ((start 4 []).setSp 0).regs[7] = 0 ∧
    (let s := (start16 4 []).setSp 17
     s.regs[7] ≠ 0 ∧ s.mem.size ≤ s.regs[7].toNat - 1 ∧ 1 ≤ s.regs[7].toNat) := by decide

theorem witness_PushOverflow :
    (7 : Byte).toNat < 8 ∧ ((start 4 []).setSp 0).regs[7] = 0 ∧
    (let s := (start16 4 []).setSp 17
     1 ≤ s.regs[7].toNat ∧ s.mem.size ≤ s.regs[7].toNat - 1) := by decide

/-- SP one below the highest value an increment admits, above the sentinel; and POP R7 of 0xFE. -/
theorem witness_PopResult :
    (let s := ((start 4 []).setSp 0xFE).store 0xFE 9
     s.regs[7] ≠ 0xF4 ∧ s.mem.read s.regs[7].toNat = .ok 9 ∧ s.regs[7] ≠ 0xFF ∧ (6 : Byte) ≠ 7) ∧
    (let s := ((start 4 []).setSp 0xFF).store 0xFF 0xFE
     s.regs[7] ≠ 0xF4 ∧ s.mem.read s.regs[7].toNat = .ok 0xFE ∧ (0xFE : Byte) ≠ 0xFF) := by decide

theorem witness_PopFaults :
    8 ≤ (8 : Byte).toNat ∧ State.reset.regs[7] = 0xF4 ∧
    (let s := (start16 4 []).setSp 16
     s.regs[7] ≠ 0xF4 ∧ s.mem.size ≤ s.regs[7].toNat) ∧
    (let s := ((start 4 []).setSp 0xFF).store 0xFF 3
     s.regs[7] ≠ 0xF4 ∧ s.mem.read s.regs[7].toNat = .ok 3 ∧ (if (0 : Byte) = 7 then (3 : Byte) else s.regs[7]) = 0xFF) ∧
    (let s := ((start 4 []).setSp 0xF3).store 0xF3 0xFF
     s.regs[7] ≠ 0xF4 ∧ s.mem.read s.regs[7].toNat = .ok 0xFF ∧
       (if (7 : Byte) = 7 then (0xFF : Byte) else s.regs[7]) = 0xFF) := by decide

theorem witness_PushThenPop :
    (6 : Byte).toNat < 7 ∧ State.reset.mem.wf ∧ State.reset.regs[7] ≠ 0 ∧ State.reset.regs[7] ≠ 0xF5 ∧
      State.reset.regs[7].toNat - 1 < State.reset.mem.size := by decide

/-- The highest CALL address whose return address fits a byte. -/
theorem witness_CallResult :
    let s := start 253 [0x50, 1]
    (1 : Byte).toNat < 8 ∧ s.mem.wf ∧ s.regs[7] ≠ 0 ∧ s.regs[7].toNat - 1 < s.mem.size ∧ s.pc + 2 ≤ 0xFF := by decide

theorem witness_CallFaults :
    8 ≤ (8 : Byte).toNat ∧ ((start 4 []).setSp 0).regs[7] = 0 ∧
    (let s := (start16 4 []).setSp 17
     s.regs[7] ≠ 0 ∧ s.mem.size ≤ s.regs[7].toNat - 1) ∧
    (let s := start 254 [0x50, 0]
     s.regs[7] ≠ 0 ∧ s.regs[7].toNat - 1 < s.mem.size ∧ 0xFF < s.pc + 2) := by decide

theorem witness_RetResult :
    let s := ((start 4 []).setSp 0xFE).store 0xFE 9
    s.regs[7] ≠ 0xF4 ∧ s.regs[7] ≠ 0xFF ∧ s.mem.read s.regs[7].toNat = .ok 9 := by decide

theorem witness_RetFaults :
    State.reset.regs[7] = 0xF4 ∧
    (let s := (start16 4 []).setSp 16
     s.regs[7] ≠ 0xF4 ∧ s.mem.size ≤ s.regs[7].toNat) ∧
    (let s := (start 4 []).setSp 0xFF
     s.regs[7] = 0xFF ∧ s.regs[7].toNat < s.mem.size) := by decide

/-- W3: CALL R1 at 3 with x[1] = 0x10 and RET at 0x10. -/
theorem witness_CallThenRet :
    let s := ((start 3 [0x50, 1]).setReg 1 0x10).store 0x10 0x11
    (1 : Byte).toNat < 7 ∧ s.mem.wf ∧ s.status = .running ∧ s.mem.read s.pc = .ok 0x50 ∧
      s.mem.read (s.pc + 1) = .ok 1 ∧ s.pc + 2 ≤ 0xFF ∧ s.regs[7] ≠ 0 ∧ s.regs[7] ≠ 0xF5 ∧
      s.regs[7].toNat - 1 < s.mem.size ∧ s.mem.read s.regs[(1 : Byte).toNat].toNat = .ok 0x11 ∧
      s.regs[(1 : Byte).toNat].toNat ≠ s.regs[7].toNat - 1 := by decide

theorem witness_RegisterWriteFrame :
    (after (exec (.ldi 7 1) State.reset)).isSome = true ∧ (after (exec (.add 0 7) State.reset)).isSome = true ∧
      (after (exec (.mul 0 8) State.reset)).isSome = true := by decide

theorem witness_NoRegisterFrame :
    (after (exec .hlt State.reset)).isSome = true ∧ (after (exec (.prn 7) State.reset)).isSome = true ∧
      (after (exec (.cmp 7 0) State.reset)).isSome = true ∧ (after (exec (.jmp 7) State.reset)).isSome = true ∧
      (after (exec (.jeq 7) State.reset)).isSome = true ∧ (after (exec (.jne 7) State.reset)).isSome = true := by decide

/-- A push with a slot, and one whose checks give none. -/
theorem witness_PushCallFrame :
    (after (exec (.push 7) State.reset)).isSome = true ∧ (after (exec (.call 7) State.reset)).isSome = true ∧
      pushSlot 0x45 State.reset = .ok 0xF3 ∧
      pushSlot 0x50 (State.reset.setSp 0) = .error (.stackOverflow 0 0x50) := by
  exact ⟨by decide, by decide, by rfl, by rfl⟩

theorem witness_PopRetFrame :
    (after (exec (.pop 0) (State.reset.setSp 0xF3))).isSome = true ∧
      (after (exec .ret (State.reset.setSp 0xF3))).isSome = true := by decide

theorem witness_RegisterOperandsChecked :
    (Instr.regOperands (.add 7 8)).find? (fun x => 8 ≤ x.toNat) = some 8 ∧
      (Instr.regOperands (.cmp 9 8)).find? (fun x => 8 ≤ x.toNat) = some 9 ∧
      Instr.wellFormed (.add 7 7) = true ∧ State.reset.status = .running := by decide

theorem witness_RegistersWritten : 6 ∉ writtenRegs (.pop 5) ∧ (after (exec (.pop 5) State.reset)).isSome = true := by
  decide

theorem witness_RegistersRead :
    (∀ a ∈ Instr.regOperands (.push 5), a.toNat ≠ 6) ∧ (6 : Nat) ≠ 7 ∧
      (after (exec (.push 5) State.reset)).isSome = true := by decide

theorem witness_MemoryAccess :
    usesStack (.ldi 0 1) = false ∧ (after (exec (.ldi 0 1) State.reset)).isSome = true ∧
      see (exec (.push 7) State.reset) (fun t => t.mem.cells) = some [(0xF3, 0xF3)] := by decide

/-- pc at the end of memory with a HLT there: the step leaves pc at N. -/
theorem witness_StepKeepsInvariant :
    Inv (start 255 [0x01]) ∧ see (step (start 255 [0x01])) State.pc = some 256 := by
  exact ⟨⟨by decide, by constructor <;> decide, by decide, fun _ h => by cases h⟩, by decide⟩

theorem witness_LoadedMachineMeetsInvariant :
    1 ≤ 1 ∧ 256 ≤ 256 ∧ (match load [1] (State.resetWith 1) with
      | .ok _ => true
      | .error _ => false) = true := by decide

end Sys2Proof.Tests
end

section
/-! PROOFS. What a completed instruction leaves behind, field by field, and what a step that answers was. -/

namespace Sys2Proof.Machine

open Sys2Proof.Claim

/-! ### A state after a fault was taken -/

section
variable {s t : State} (h : RaisedFrom s t)
include h

theorem RaisedFrom.regs : t.regs = s.regs := by obtain ⟨c, -, rfl⟩ := h; rfl
theorem RaisedFrom.flags : t.flags = s.flags := by obtain ⟨c, -, rfl⟩ := h; rfl
theorem RaisedFrom.mem : t.mem = s.mem := by obtain ⟨c, -, rfl⟩ := h; rfl
theorem RaisedFrom.out : t.out = s.out := by obtain ⟨c, -, rfl⟩ := h; rfl
theorem RaisedFrom.isFaulted : t.isFaulted := by obtain ⟨c, -, rfl⟩ := h; exact ⟨_, rfl⟩

end

/-! ### A completed instruction -/

/-- `i`, run from `s`, passed its checks and left `t`: each instruction's effect (40_cycle.md R73), with what its checks
established. -/
inductive Completes (s : State) : Instr → State → Prop where
  | hlt : Completes s .hlt (s.halt.advance 0)
  | ldi {a b : Byte} (ra : RegIdx) (na : ra.val = a.toNat) : Completes s (.ldi a b) ((s.setReg ra b).advance 2)
  | prn {a : Byte} (ra : RegIdx) (na : ra.val = a.toNat) : Completes s (.prn a) ((s.emit (s.reg ra)).advance 1)
  | add {a b : Byte} (ra rb : RegIdx) (na : ra.val = a.toNat) (nb : rb.val = b.toNat) :
      Completes s (.add a b) ((s.setReg ra (aluAdd (s.reg ra) (s.reg rb))).advance 2)
  | mul {a b : Byte} (ra rb : RegIdx) (na : ra.val = a.toNat) (nb : rb.val = b.toNat) :
      Completes s (.mul a b) ((s.setReg ra (aluMul (s.reg ra) (s.reg rb))).advance 2)
  | push {a : Byte} (ra : RegIdx) (na : ra.val = a.toNat) (nonzero : s.sp ≠ 0)
      (fits : (s.sp - 1).toNat < s.mem.size) :
      Completes s (.push a)
        (((s.setSp (s.sp - 1)).store (s.sp - 1).toNat ((s.setSp (s.sp - 1)).reg ra)).advance 1)
  | pop {a : Byte} (ra : RegIdx) (v : Byte) (na : ra.val = a.toNat) (above : s.sp ≠ Config.spInit)
      (read : s.mem.read s.sp.toNat = .ok v) (increments : (if ra = Config.spIndex then v else s.sp) ≠ 0xFF) :
      Completes s (.pop a) (((s.setReg ra v).setSp ((s.setReg ra v).sp + 1)).advance 1)
  | call {a : Byte} (ra : RegIdx) (na : ra.val = a.toNat) (nonzero : s.sp ≠ 0)
      (fits : (s.sp - 1).toNat < s.mem.size) (returns : s.pc + 2 ≤ 255) :
      Completes s (.call a)
        (((s.setSp (s.sp - 1)).store (s.sp - 1).toNat (BitVec.ofNat 8 (s.pc + 2))).setPc
          ((s.setSp (s.sp - 1)).reg ra).toNat)
  | ret (v : Byte) (above : s.sp ≠ Config.spInit) (read : s.mem.read s.sp.toNat = .ok v) (increments : s.sp ≠ 0xFF) :
      Completes s .ret ((s.setPc v.toNat).setSp (s.sp + 1))
  | cmp {a b : Byte} (ra rb : RegIdx) (na : ra.val = a.toNat) (nb : rb.val = b.toNat) :
      Completes s (.cmp a b) (({ s with flags := s.flags.compare (s.reg ra) (s.reg rb) } : State).advance 2)
  | jmp {a : Byte} (ra : RegIdx) (na : ra.val = a.toNat) : Completes s (.jmp a) (s.setPc (s.reg ra).toNat)
  | jeq {a : Byte} (ra : RegIdx) (na : ra.val = a.toNat) :
      Completes s (.jeq a) (if s.flags.e then s.setPc (s.reg ra).toNat else s.advance 1)
  | jne {a : Byte} (ra : RegIdx) (na : ra.val = a.toNat) :
      Completes s (.jne a) (if !s.flags.e then s.setPc (s.reg ra).toNat else s.advance 1)

/-- The execute stage completes the instruction or takes a fault from the state before it. -/
theorem exec_next {i : Instr} {s t : State} (h : exec i s = .next t) : Completes s i t ∨ RaisedFrom s t := by
  cases i with
  | hlt =>
    rw [execHlt_next h]
    exact .inl .hlt
  | ldi a b => exact (execLdi_next h).imp_left fun ⟨ra, na, e⟩ => e ▸ .ldi ra na
  | prn a => exact (execPrn_next h).imp_left fun ⟨ra, na, e⟩ => e ▸ .prn ra na
  | add a b => exact (execAdd_next h).imp_left fun ⟨ra, rb, na, nb, e⟩ => e ▸ .add ra rb na nb
  | mul a b => exact (execMul_next h).imp_left fun ⟨ra, rb, na, nb, e⟩ => e ▸ .mul ra rb na nb
  | push a =>
    exact (execPush_next h).imp_left fun ⟨ra, na, nonzero, fits, e⟩ => e ▸ .push ra na nonzero fits
  | pop a =>
    exact (execPop_next h).imp_left fun ⟨ra, v, na, above, read, increments, e⟩ =>
      e ▸ .pop ra v na above read increments
  | call a =>
    exact (execCall_next h).imp_left fun ⟨ra, na, nonzero, fits, returns, e⟩ =>
      e ▸ .call ra na nonzero fits returns
  | ret =>
    exact (execRet_next h).imp_left fun ⟨v, above, read, increments, e⟩ => e ▸ .ret v above read increments
  | cmp a b => exact (execCmp_next h).imp_left fun ⟨ra, rb, na, nb, e⟩ => e ▸ .cmp ra rb na nb
  | jmp a => exact (execJump_next h).imp_left fun ⟨ra, na, e⟩ => e ▸ .jmp ra na
  | jeq a => exact (execJump_next h).imp_left fun ⟨ra, na, e⟩ => e ▸ .jeq ra na
  | jne a => exact (execJump_next h).imp_left fun ⟨ra, na, e⟩ => e ▸ .jne ra na

section
variable {i : Instr} {s t : State}

/-- The "writes" column of 10_state.md R21. -/
theorem Completes.regs (h : Completes s i t) {r : Nat} (hr : r < 8) (unwritten : r ∉ writtenRegs i) :
    t.regs[r] = s.regs[r] := by
  cases h with
  | ldi ra na | add ra rb na | mul ra rb na =>
    have : ra.val ≠ r := fun e => unwritten (by simp [writtenRegs, ← na, e])
    simp [Vector.getElem_set_ne, this]
  | pop ra v na =>
    have hd : ra.val ≠ r := fun e => unwritten (by simp [writtenRegs, ← na, e])
    have hsp : Config.spIndex.val ≠ r := fun e => unwritten (by simp [writtenRegs, ← e, Config.spIndex])
    simp [Vector.getElem_set_ne, hd, hsp]
  | push | call | ret =>
    have : Config.spIndex.val ≠ r := fun e => unwritten (by simp [writtenRegs, ← e, Config.spIndex])
    simp [Vector.getElem_set_ne, this]
  | jeq | jne => split <;> rfl
  | hlt | prn | cmp | jmp => rfl

theorem Completes.flags (h : Completes s i t) :
    t.flags = s.flags ∨ ∃ a b x y, i = .cmp a b ∧ t.flags = s.flags.compare x y := by
  cases h with
  | cmp ra rb => exact .inr ⟨_, _, s.reg ra, s.reg rb, rfl, rfl⟩
  | jeq | jne => left; split <;> rfl
  | _ => exact .inl rfl

theorem Completes.mem (h : Completes s i t) :
    t.mem = s.mem ∨ (∃ a, i = .push a ∨ i = .call a) ∧ s.sp ≠ 0 ∧ (s.sp - 1).toNat < s.mem.size ∧
      ∃ v, t.mem = s.mem.store (s.sp - 1).toNat v := by
  cases h with
  | push _ _ nonzero fits => exact .inr ⟨⟨_, .inl rfl⟩, nonzero, fits, _, rfl⟩
  | call _ _ nonzero fits => exact .inr ⟨⟨_, .inr rfl⟩, nonzero, fits, _, rfl⟩
  | jeq | jne => left; split <;> rfl
  | _ => exact .inl rfl

theorem Completes.out (h : Completes s i t) :
    t.out = s.out ∨ ∃ a ra, i = .prn a ∧ t.out = s.out ++ [s.reg ra] := by
  cases h with
  | prn ra => exact .inr ⟨_, ra, rfl, rfl⟩
  | jeq | jne => left; split <;> rfl
  | _ => exact .inl rfl

theorem Completes.status (h : Completes s i t) : t.status = s.status ∨ (i = .hlt ∧ t.status = .halted) := by
  cases h with
  | hlt => exact .inr ⟨rfl, rfl⟩
  | jeq | jne => left; split <;> rfl
  | _ => exact .inl rfl

/-- pc goes on behind the instruction's bytes or to a byte's value (40_cycle.md R74, 44_control_transfer.md R97). -/
theorem Completes.pc (h : Completes s i t) : t.pc = s.pc + (encode i).length ∨ t.pc ≤ 255 := by
  have byte_le (v : Byte) : v.toNat ≤ 255 := Nat.le_of_lt_succ v.isLt
  cases h with
  | call | ret | jmp => exact .inr (byte_le _)
  | jeq | jne =>
    split
    · exact .inr (byte_le _)
    · exact .inl rfl
  | _ => exact .inl rfl

/-! ### The frame of `exec`, faults included -/

theorem exec_regs (h : exec i s = .next t) {r : Nat} (hr : r < 8) (unwritten : r ∉ writtenRegs i) :
    t.regs[r] = s.regs[r] := by
  rcases exec_next h with done | raised
  · exact done.regs hr unwritten
  · simp only [raised.regs]

theorem exec_flags (h : exec i s = .next t) (noCmp : ∀ a b, i ≠ .cmp a b) : t.flags = s.flags := by
  rcases exec_next h with done | raised
  · exact done.flags.resolve_right fun ⟨a, b, _, _, e, _⟩ => noCmp a b e
  · exact raised.flags

theorem exec_mem (h : exec i s = .next t) :
    t.mem = s.mem ∨ (∃ a, i = .push a ∨ i = .call a) ∧ s.sp ≠ 0 ∧ (s.sp - 1).toNat < s.mem.size ∧
      ∃ v, t.mem = s.mem.store (s.sp - 1).toNat v := by
  rcases exec_next h with done | raised
  · exact done.mem
  · exact .inl raised.mem

theorem exec_out (h : exec i s = .next t) (noPrn : ∀ a, i ≠ .prn a) : t.out = s.out := by
  rcases exec_next h with done | raised
  · exact done.out.resolve_right fun ⟨a, _, e, _⟩ => noPrn a e
  · exact raised.out

theorem exec_status (h : exec i s = .next t) (noHlt : i ≠ .hlt) : t.status = s.status ∨ t.isFaulted := by
  rcases exec_next h with done | raised
  · exact .inl (done.status.resolve_right fun ⟨e, _⟩ => noHlt e)
  · exact .inr raised.isFaulted

/-- Only PUSH and CALL change memory (20_memory.md R39, 90_conflicts.md C5). -/
theorem exec_mem_of_not_push (h : exec i s = .next t) (noPush : ∀ a, i ≠ .push a) (noCall : ∀ a, i ≠ .call a) :
    t.mem = s.mem :=
  (exec_mem h).resolve_right fun ⟨⟨a, e⟩, _⟩ => e.elim (noPush a) (noCall a)

end

/-! ### What a step was -/

theorem encode_withOperands_head (m : Mnemonic) (a b : Byte) : (encode (m.withOperands a b)).headD 0 = m.opcode := by
  cases m <;> rfl

theorem encode_withOperands_length (m : Mnemonic) (a b : Byte) :
    (encode (m.withOperands a b)).length = 1 + m.count := by
  cases m <;> rfl

/-- The opcode of decoded bytes is that of the instruction, and counts its operand bytes. -/
theorem decode_opcode {opcode : Byte} {operands rest : List Byte} {i : Instr}
    (h : decode (opcode :: operands) = .ok (i, rest)) :
    (encode i).headD 0 = opcode ∧ (encode i).length = 1 + operandCount opcode := by
  rw [decode] at h
  split at h
  · cases h
  · split at h
    · cases h
    · rename_i m hm
      cases h
      obtain ⟨row, count⟩ := lookupOpcode_some hm
      exact ⟨by rw [encode_withOperands_head, row], by rw [encode_withOperands_length, count]⟩

/-- A sequence of reads has no fault but MemoryBoundsError. -/
theorem Memory.memoryBounds_of_readSeq_error {m : Memory} {c : FaultCause} (n : Nat) :
    ∀ a : Nat, m.readSeq a n = .error c → ∃ address, c = .memoryBounds address := by
  induction n with
  | zero => intro a h; cases h
  | succ n ih =>
    intro a h
    rcases Nat.lt_or_ge a m.size with ha | ha
    · simp only [Memory.readSeq, Memory.read_of_lt ha] at h
      split at h <;> cases h
      exact ih _ ‹_›
    · simp only [Memory.readSeq, Memory.read_of_ge ha] at h
      cases h
      exact ⟨a, rfl⟩

/-- A fetch has no fault but MemoryBoundsError (40_cycle.md R70, R71). -/
theorem memoryBounds_of_fetch_error {s : State} {c : FaultCause} (h : fetch s = .error c) :
    ∃ address, c = .memoryBounds address := by
  rcases Nat.lt_or_ge s.pc s.mem.size with hp | hp
  · simp only [fetch, Memory.read_of_lt hp] at h
    split at h <;> cases h
    exact Memory.memoryBounds_of_readSeq_error _ _ ‹_›
  · simp only [fetch, Memory.read_of_ge hp] at h
    cases h
    exact ⟨s.pc, rfl⟩

/-- The opcode byte of `i` stands at pc, and all of `i`'s bytes lie in memory. -/
def AtPc (s : State) (i : Instr) : Prop :=
  s.mem.read s.pc = .ok ((encode i).headD 0) ∧ s.pc + (encode i).length ≤ s.mem.size

/-- A fetch whose bytes decode found the instruction at pc. -/
theorem atPc_of_fetch {s : State} {ir : Fetched} {i : Instr} {rest : List Byte} (hf : fetch s = .ok ir)
    (hd : decode (ir.opcode :: ir.operands) = .ok (i, rest)) : AtPc s i := by
  obtain ⟨head, length⟩ := decode_opcode hd
  have := (fetch_in_range hf).2
  exact ⟨by rw [head]; exact (fetch_ok hf).1, by omega⟩

/-- A step takes a fault, or completes the instruction at pc. -/
theorem step_raised_or_completes {s t : State} (h : step s = .next t) :
    s.status = .running ∧ (RaisedFrom s t ∨ ∃ i, AtPc s i ∧ Completes s i t) := by
  obtain ⟨running, ⟨c, hc, e⟩ | ⟨ir, hf, ⟨_, _, e⟩ | ⟨i, rest, hd, he⟩⟩⟩ := step_next h
  · obtain ⟨address, rfl⟩ := memoryBounds_of_fetch_error hc
    exact ⟨running, .inl ⟨_, by simp, e⟩⟩
  · exact ⟨running, .inl ⟨_, by simp, e⟩⟩
  · refine ⟨running, ?_⟩
    rcases exec_next he with done | raised
    · exact .inr ⟨i, atPc_of_fetch hf hd, done⟩
    · exact .inl raised

end Sys2Proof.Machine
end

section
/-! PROOFS. Runs: the flags, OUT, the final states and the invariant (10_state.md). -/

namespace Sys2Proof.Machine

open Sys2Proof.Claim

/-! ### Final states -/

/-- A machine that is not Running has no step (40_cycle.md R69). -/
theorem eq_of_reaches_of_not_running {s t : State} (h : Reaches s t) (stopped : s.status ≠ .running) : t = s :=
  reaches_induction (P := fun u => u = s) h rfl fun _ _ e next => absurd (step_next next).1 (e ▸ stopped)

/-- Settles O14: by induction over the run, since a step needs a Running machine. -/
theorem finalStatesNeverLeft : Obligations.FinalStatesNeverLeft := by
  unfold Obligations.FinalStatesNeverLeft
  intro s t stopped h
  obtain rfl := eq_of_reaches_of_not_running h stopped
  exact ⟨rfl, fun halted => by simp [step, halted], fun record faulted => by simp [step, faulted]⟩

/-- Settles O13: of all completed instructions only HLT changes the status, and its byte is at pc. -/
theorem onlyHltHalts : Obligations.OnlyHltHalts := by
  unfold Obligations.OnlyHltHalts
  intro s t h halted
  obtain ⟨running, raised | ⟨i, ⟨opcode, -⟩, done⟩⟩ := step_raised_or_completes h
  · obtain ⟨record, faulted⟩ := raised.isFaulted
    simp [halted] at faulted
  · rcases done.status with same | ⟨rfl, -⟩
    · simp [same, running] at halted
    · exact opcode

/-! ### The flags -/

/-- Every flag set in `f` is set in `g`. -/
def Flags.KeptIn (f g : Flags) : Prop :=
  (f.e = true → g.e = true) ∧ (f.l = true → g.l = true) ∧ (f.g = true → g.g = true)

theorem Flags.KeptIn.refl (f : Flags) : f.KeptIn f := ⟨id, id, id⟩

theorem Flags.KeptIn.trans {f g h : Flags} (fg : f.KeptIn g) (gh : g.KeptIn h) : f.KeptIn h :=
  ⟨gh.1 ∘ fg.1, gh.2.1 ∘ fg.2.1, gh.2.2 ∘ fg.2.2⟩

/-- A step clears no flag (10_state.md R25). -/
theorem step_keeps_flags {s t : State} (h : step s = .next t) : s.flags.KeptIn t.flags := by
  obtain ⟨-, raised | ⟨i, -, done⟩⟩ := step_raised_or_completes h
  · exact raised.flags ▸ .refl _
  · rcases done.flags with same | ⟨_, _, x, y, -, compared⟩
    · exact same ▸ .refl _
    · exact compared ▸ compare_keeps s.flags x y

theorem reaches_keeps_flags {s t : State} (h : Reaches s t) : s.flags.KeptIn t.flags :=
  reaches_induction (P := fun u => s.flags.KeptIn u.flags) h (.refl _) fun _ _ kept next =>
    kept.trans (step_keeps_flags next)

/-- A jump through a register that is one (44_control_transfer.md R104, R105). -/
theorem execJump_of_lt {opcode a : Byte} (taken : Bool) (s : State) (ha : a.toNat < 8) :
    execJump opcode a taken s = .next { s with pc := if taken then s.regs[a.toNat].toNat else s.pc + 2 } := by
  cases taken <;> simp [execJump, regOperand_of_lt ha, State.setPc, State.advance, State.reg]

theorem exec_jeq_of_lt {a : Byte} (s : State) (ha : a.toNat < 8) :
    exec (.jeq a) s = .next { s with pc := if s.flags.e then s.regs[a.toNat].toNat else s.pc + 2 } :=
  execJump_of_lt s.flags.e s ha

theorem exec_jne_of_lt {a : Byte} (s : State) (ha : a.toNat < 8) :
    exec (.jne a) s = .next { s with pc := if s.flags.e then s.pc + 2 else s.regs[a.toNat].toNat } := by
  have h : exec (.jne a) s = _ := execJump_of_lt (!s.flags.e) s ha
  cases he : s.flags.e <;> simpa [he] using h

/-- Settles O22: no step clears a flag, so none is cleared along a run, and JEQ and JNE decide by E. -/
theorem stickyFlags : Obligations.StickyFlags := by
  unfold Obligations.StickyFlags
  intro s t h
  obtain ⟨e, l, g⟩ := reaches_keeps_flags h
  refine ⟨l, g, fun he => ⟨e he, fun a ha => ⟨?_, ?_⟩⟩⟩
  · simp [exec_jeq_of_lt t ha, e he]
  · simp [exec_jne_of_lt t ha, e he]

/-! ### OUT -/

/-- What a step does to OUT (10_state.md R32): nothing, or a PRN appends a register's byte. -/
theorem step_out {s t : State} (h : step s = .next t) :
    t.out = s.out ∨ s.mem.read s.pc = .ok Opcode.prn ∧ ∃ ra, t.out = s.out ++ [s.reg ra] := by
  obtain ⟨-, raised | ⟨i, ⟨opcode, -⟩, done⟩⟩ := step_raised_or_completes h
  · exact .inl raised.out
  · rcases done.out with same | ⟨_, ra, rfl, appended⟩
    · exact .inl same
    · exact .inr ⟨opcode, ra, appended⟩

theorem step_out_prefix {s t : State} (h : step s = .next t) : s.out <+: t.out := by
  rcases step_out h with same | ⟨-, ra, appended⟩
  · rw [same]
  · exact ⟨_, appended.symm⟩

/-- Settles O27: a step appends at most one byte, and only a PRN does. -/
theorem outputOnlyAppended : Obligations.OutputOnlyAppended := by
  unfold Obligations.OutputOnlyAppended
  refine ⟨fun s t h => ?_, fun s t h changed => ?_⟩
  · exact reaches_induction (P := fun u => s.out <+: u.out) h (List.prefix_refl _) fun _ _ before next =>
      before.trans (step_out_prefix next)
  · obtain ⟨opcode, ra, appended⟩ := (step_out h).resolve_left changed
    exact ⟨opcode, s.reg ra, appended, Vector.mem_toList_iff.mpr (Vector.getElem_mem ra.isLt)⟩

/-! ### The invariant -/

/-- A fault taken keeps the invariant: the record's pc is the machine's (40_cycle.md R76). -/
theorem Inv.raised {s t : State} (inv : Inv s) (h : RaisedFrom s t) : Inv t := by
  obtain ⟨cause, known, rfl⟩ := h
  refine ⟨inv.memory_wf, inv.memory_size, inv.pc_range, fun record e => ?_⟩
  cases e
  exact ⟨rfl, known⟩

/-- A completed instruction keeps the memory's size. -/
theorem Completes.mem_size {i : Instr} {s t : State} (h : Completes s i t) : t.mem.size = s.mem.size := by
  rcases h.mem with same | ⟨-, -, -, v, stored⟩
  · rw [same]
  · rw [stored, Memory.store_size]

/-- A completed instruction keeps the memory's canonical form: its store is in range. -/
theorem Completes.mem_wf {i : Instr} {s t : State} (h : Completes s i t) (wf : s.mem.wf) : t.mem.wf := by
  rcases h.mem with same | ⟨-, -, fits, v, stored⟩
  · rwa [same]
  · rw [stored]
    exact Memory.store_wf v wf fits

/-- An instruction completed from a Running state leaves no fault record. -/
theorem Completes.not_faulted {i : Instr} {s t : State} (h : Completes s i t) (running : s.status = .running) :
    ∀ record, t.status ≠ .faulted record := by
  rcases h.status with same | ⟨-, halted⟩
  · simp [same, running]
  · simp [halted]

/-- The instruction at pc keeps the invariant: its bytes lie in memory, so the address behind them is at most N, and a
jump's target is a byte (10_state.md R28). -/
theorem Inv.completes {i : Instr} {s t : State} (inv : Inv s) (running : s.status = .running) (atPc : AtPc s i)
    (h : Completes s i t) : Inv t where
  memory_wf := h.mem_wf inv.memory_wf
  memory_size := by
    unfold Memory.sizeOk
    rw [h.mem_size]
    exact inv.memory_size
  pc_range := by
    have size := h.mem_size
    obtain ⟨-, inMemory⟩ := atPc
    rcases h.pc with behind | byte <;> omega
  record_ok := fun record faulted => absurd faulted (h.not_faulted running record)

/-- Settles O50: a step takes a fault or completes the instruction at pc, and both keep the invariant. -/
theorem stepKeepsInvariant : Obligations.StepKeepsInvariant := by
  unfold Obligations.StepKeepsInvariant
  intro s t inv h
  obtain ⟨running, raised | ⟨i, atPc, done⟩⟩ := step_raised_or_completes h
  · exact ⟨inv.raised raised, by rw [raised.mem]⟩
  · exact ⟨inv.completes running atPc done, done.mem_size⟩

theorem inv_resetWith {n : Nat} (pos : 1 ≤ n) (le : n ≤ 256) : Inv (State.resetWith n) where
  memory_wf := resetWith_wf n
  memory_size := ⟨pos, le⟩
  pc_range := Nat.zero_le _
  record_ok := fun _ e => by cases e

/-- What a load that answers has done (70_reset_and_hazards.md R122). -/
theorem load_ok {program : List Byte} {s t : State} (h : load program s = .ok t) :
    program.length ≤ s.mem.size ∧ t = { s with mem := s.mem.place 0 program } := by
  unfold load at h
  split at h <;> cases h
  exact ⟨‹_›, rfl⟩

/-- A load keeps the invariant. -/
theorem Inv.load {program : List Byte} {s t : State} (inv : Inv s) (h : load program s = .ok t) : Inv t := by
  obtain ⟨-, rfl⟩ := load_ok h
  refine ⟨Memory.place_wf _ _ _ inv.memory_wf, ?_, ?_, inv.record_ok⟩
  · unfold Memory.sizeOk
    rw [Memory.place_size]
    exact inv.memory_size
  · rw [Memory.place_size]
    exact inv.pc_range

/-- Settles O51: reset meets the invariant field by field, and placing bytes keeps it. -/
theorem loadedMachineMeetsInvariant : Obligations.LoadedMachineMeetsInvariant := by
  unfold Obligations.LoadedMachineMeetsInvariant
  refine ⟨inv_resetWith (by decide) (by decide), fun n program t pos le => ?_⟩
  exact ⟨inv_resetWith pos le, (inv_resetWith pos le).load⟩

/-! ### Reset -/

/-- Every cell of a reset machine reads 0 (10_state.md R37). -/
theorem read_resetWith {n a : Nat} (h : a < n) : (State.resetWith n).mem.read a = .ok 0 := Memory.read_of_lt h

/-- A loaded program reads back from address 0. -/
theorem read_load {program : List Byte} {s t : State} (wf : s.mem.wf) (h : load program s = .ok t) :
    ∀ k (hk : k < program.length), t.mem.read k = .ok program[k] := by
  intro k hk
  obtain ⟨fits, rfl⟩ := load_ok h
  simpa using Memory.read_place program s.mem 0 k hk wf (by simpa using fits)

/-- Settles O16: the reset values are the definition's, and a load only places the program's bytes. -/
theorem resetState : Obligations.ResetState := by
  unfold Obligations.ResetState
  refine ⟨rfl, fun n => ⟨fun a h => read_resetWith h, rfl, ?_, rfl, rfl, rfl, rfl, rfl, fun program t h => ⟨?_, ?_⟩⟩⟩
  · show ∀ r (h : r < 7), resetRegs[r] = 0
    decide
  · obtain ⟨-, rfl⟩ := load_ok h
    rfl
  · exact read_load (resetWith_wf n) h

end Sys2Proof.Machine
end

section
/-! PROOFS. The frames: what each group of instructions leaves alone (10_state.md R21, R24; 20_memory.md R39). -/

namespace Sys2Proof.Machine

open Sys2Proof.Claim

/-- Settles O47: the register frame of `exec`. -/
theorem registersWritten : Obligations.RegistersWritten := by
  unfold Obligations.RegistersWritten
  intro i s t h r hr unwritten
  exact exec_regs h hr unwritten

/-- Settles O42: the frame of `exec` for the three instructions whose row of R21 lists the destination alone. -/
theorem registerWriteFrame : Obligations.RegisterWriteFrame := by
  unfold Obligations.RegisterWriteFrame
  intro i a b s t which h
  have ⟨written, noHlt, noPrn, noCmp, noPush, noCall⟩ : writtenRegs i = [a.toNat] ∧ i ≠ .hlt ∧ (∀ a, i ≠ .prn a) ∧
      (∀ a b, i ≠ .cmp a b) ∧ (∀ a, i ≠ .push a) ∧ (∀ a, i ≠ .call a) := by
    rcases which with rfl | rfl | rfl <;> simp [writtenRegs]
  exact ⟨fun r hr other => exec_regs h hr (by simpa [written] using other), exec_flags h noCmp,
    fun addr => by rw [exec_mem_of_not_push h noPush noCall], exec_out h noPrn, exec_status h noHlt⟩

/-- Settles O43: the frame of `exec` for the instructions whose row of R21 lists no register as written. -/
theorem noRegisterFrame : Obligations.NoRegisterFrame := by
  unfold Obligations.NoRegisterFrame
  intro i s t h which
  have ⟨written, noPush, noCall⟩ : writtenRegs i = [] ∧ (∀ a, i ≠ .push a) ∧ (∀ a, i ≠ .call a) := by
    rcases which with rfl | ⟨a, rfl⟩ | ⟨a, b, rfl⟩ | ⟨a, rfl⟩ | ⟨a, rfl⟩ | ⟨a, rfl⟩ <;> simp [writtenRegs]
  exact ⟨Vector.ext fun r hr => exec_regs h hr (by simp [written]),
    fun addr => by rw [exec_mem_of_not_push h noPush noCall], exec_flags h, exec_out h, exec_status h⟩

/-- The checks of a push pass when SP is not 0 and the slot lies in memory (43_stack.md R93). -/
theorem pushSlot_of_fits {s : State} (opcode : Byte) (nonzero : s.sp ≠ 0) (fits : (s.sp - 1).toNat < s.mem.size) :
    pushSlot opcode s = .ok (s.sp - 1) := by
  rcases pushSlot_cases opcode s with ⟨zero, -⟩ | ⟨-, outside, -⟩ | ⟨-, -, ok⟩
  · exact absurd zero nonzero
  · omega
  · exact ok

/-- Every address but the slot that the checks of a push give reads as before. -/
theorem exec_read_other {i : Instr} {s t : State} {opcode slot : Byte} (h : exec i s = .next t)
    (hs : pushSlot opcode s = .ok slot) {b : Nat} (other : b ≠ slot.toNat) : t.mem.read b = s.mem.read b := by
  obtain ⟨-, rfl, -⟩ := pushSlot_ok hs
  rcases exec_mem h with same | ⟨-, -, -, v, stored⟩
  · rw [same]
  · rw [stored, Memory.read_store_other _ v other]

/-- Memory is unchanged where the checks of a push give no slot. -/
theorem exec_mem_of_pushSlot_error {i : Instr} {s t : State} {opcode : Byte} {c : FaultCause} (h : exec i s = .next t)
    (hs : pushSlot opcode s = .error c) : t.mem = s.mem := by
  refine (exec_mem h).resolve_right fun ⟨_, nonzero, fits, _⟩ => ?_
  rw [pushSlot_of_fits opcode nonzero fits] at hs
  cases hs

/-- Settles O44: the frame of `exec` for the two instructions that push. -/
theorem pushCallFrame : Obligations.PushCallFrame := by
  unfold Obligations.PushCallFrame
  intro i a opcode s t which h
  have ⟨written, noHlt, noPrn, noCmp⟩ : writtenRegs i = [7] ∧ i ≠ .hlt ∧ (∀ a, i ≠ .prn a) ∧
      (∀ a b, i ≠ .cmp a b) := by
    rcases which with ⟨rfl, -⟩ | ⟨rfl, -⟩ <;> simp [writtenRegs]
  refine ⟨fun r hr => exec_regs h (by omega) ?_, exec_flags h noCmp, exec_out h noPrn, exec_status h noHlt,
    fun slot hs b other => exec_read_other h hs other, fun c hs b => by rw [exec_mem_of_pushSlot_error h hs]⟩
  rw [written, List.mem_singleton]
  omega

/-- Settles O45: the frame of `exec` for the two instructions that pop. -/
theorem popRetFrame : Obligations.PopRetFrame := by
  unfold Obligations.PopRetFrame
  intro i s t h which
  have ⟨noHlt, noPrn, noCmp, noPush, noCall⟩ : i ≠ .hlt ∧ (∀ a, i ≠ .prn a) ∧
      (∀ a b, i ≠ .cmp a b) ∧ (∀ a, i ≠ .push a) ∧ (∀ a, i ≠ .call a) := by
    rcases which with rfl | ⟨a, rfl⟩ <;> simp
  refine ⟨fun r hr other => exec_regs h (by omega) ?_, exec_flags h noCmp,
    fun addr => by rw [exec_mem_of_not_push h noPush noCall], exec_out h noPrn, exec_status h noHlt⟩
  have notSp : r ≠ 7 := by omega
  rcases which with rfl | ⟨a, rfl⟩
  · simpa [writtenRegs] using notSp
  · simpa [writtenRegs, notSp] using other a rfl

end Sys2Proof.Machine
end

section
/-! PROOFS. The register operands' checks (10_state.md R22, 40_cycle.md R77). -/

namespace Sys2Proof.Machine

open Sys2Proof.Claim

@[simp] theorem check_regOperand_of_ge {opcode operand : Byte} (s : State) (go : RegIdx → Result)
    (h : 8 ≤ operand.toNat) :
    s.check (regOperand opcode operand) go = .next (s.raise (.registerIndex operand opcode)) := by
  rw [regOperand_of_ge h, check_error]

@[simp] theorem check_regOperand_of_lt {opcode operand : Byte} (s : State) (go : RegIdx → Result)
    (h : operand.toNat < 8) : s.check (regOperand opcode operand) go = go ⟨operand.toNat, h⟩ := by
  rw [regOperand_of_lt h, check_ok]

/-- The only operand of an instruction, when it is the first above 7. -/
theorem find_badOperand_one {a index : Byte} (h : [a].find? (fun x => 8 ≤ x.toNat) = some index) :
    index = a ∧ 8 ≤ a.toNat := by
  simp only [List.find?_singleton, Option.ite_none_right_eq_some, decide_eq_true_eq, Option.some.injEq] at h
  exact ⟨h.2.symm, h.1⟩

/-- The first of two operands that is above 7. -/
theorem find_badOperand_two {a b index : Byte} (h : [a, b].find? (fun x => 8 ≤ x.toNat) = some index) :
    (index = a ∧ 8 ≤ a.toNat) ∨ (index = b ∧ a.toNat < 8 ∧ 8 ≤ b.toNat) := by
  rcases Nat.lt_or_ge a.toNat 8 with ha | ha
  · rw [List.find?_cons_of_neg (by simpa using ha)] at h
    obtain ⟨rfl, hb⟩ := find_badOperand_one h
    exact .inr ⟨rfl, ha, hb⟩
  · rw [List.find?_cons_of_pos (by simpa using ha)] at h
    cases h
    exact .inl ⟨rfl, ha⟩

theorem execAlu_badOperand {opcode a b index : Byte} (s : State)
    (h : [a, b].find? (fun x => 8 ≤ x.toNat) = some index) :
    execAlu opcode a b s = .next (s.raise (.registerIndex index opcode)) := by
  unfold execAlu
  rcases find_badOperand_two h with ⟨rfl, ha⟩ | ⟨rfl, ha, hb⟩
  · rw [check_regOperand_of_ge _ _ ha]
  · rw [check_regOperand_of_lt _ _ ha, check_regOperand_of_ge _ _ hb]

/-- The first register operand above 7 raises RegisterIndexError from the state before (10_state.md R22). -/
theorem exec_badOperand {i : Instr} {index : Byte} (s : State)
    (h : i.regOperands.find? (fun x => 8 ≤ x.toNat) = some index) :
    exec i s = .next (s.raise (.registerIndex index ((encode i).headD 0))) := by
  cases i with
  | hlt | ret => cases h
  | add a b | mul a b | cmp a b => exact execAlu_badOperand s h
  | ldi a _ | prn a | push a | pop a | call a | jmp a | jeq a | jne a =>
    obtain ⟨rfl, ha⟩ := find_badOperand_one h
    exact check_regOperand_of_ge s _ ha

/-- A check raises no fault of a kind that neither it nor its continuation raises. -/
theorem not_raises_check {α : Type} {s : State} {c : Except FaultCause α} {go : α → Result} {P : FaultCause → Prop}
    (check : ∀ cause, c = .error cause → ¬ P cause) (rest : ∀ x, ¬ Raises (go x) P) : ¬ Raises (s.check c go) P := by
  cases c with
  | ok x => exact rest x
  | error cause =>
    rintro ⟨t, record, next, faulted, kind⟩
    cases next
    cases faulted
    exact check cause rfl kind

/-- A Running next state raises nothing. -/
theorem not_raises_next {t : State} {P : FaultCause → Prop} (running : t.status = .running) :
    ¬ Raises (.next t) P := by
  rintro ⟨u, record, next, faulted, -⟩
  cases next
  simp [running] at faulted

/-- RegisterIndexError, whatever the record holds. -/
def IsAnyIndexError (cause : FaultCause) : Prop := ∃ x, IsIndexError x cause

theorem regOperand_noIndexError {opcode operand : Byte} (h : operand.toNat < 8) (cause : FaultCause)
    (e : regOperand opcode operand = .error cause) : ¬ IsAnyIndexError cause := by
  rw [regOperand_of_lt h] at e
  cases e

theorem pushSlot_noIndexError {opcode : Byte} {s : State} (cause : FaultCause)
    (e : pushSlot opcode s = .error cause) : ¬ IsAnyIndexError cause := by
  rcases pushSlot_cases opcode s with ⟨-, k⟩ | ⟨-, -, k⟩ | ⟨-, -, k⟩ <;> rw [k] at e <;> cases e <;>
    simp [IsAnyIndexError, IsIndexError]

theorem popByte_noIndexError {opcode : Byte} {s : State} (cause : FaultCause)
    (e : popByte opcode s = .error cause) : ¬ IsAnyIndexError cause := by
  rcases popByte_cases opcode s with ⟨-, k⟩ | ⟨-, -, k⟩ | ⟨-, -, k⟩ <;> rw [k] at e <;> cases e <;>
    simp [IsAnyIndexError, IsIndexError]

theorem checkIncrement_noIndexError {opcode x : Byte} {s : State} (cause : FaultCause)
    (e : checkIncrement opcode s x = .error cause) : ¬ IsAnyIndexError cause := by
  rcases checkIncrement_cases opcode s x with ⟨-, k⟩ | ⟨-, k⟩ <;> rw [k] at e <;> cases e
  simp [IsAnyIndexError, IsIndexError]

theorem returnAddress_noIndexError {p : Nat} (cause : FaultCause)
    (e : returnAddress p = .error cause) : ¬ IsAnyIndexError cause := by
  rcases returnAddress_cases p with ⟨-, k⟩ | ⟨-, k⟩ <;> rw [k] at e <;> cases e
  simp [IsAnyIndexError, IsIndexError]

/-- The register operands of a well-formed instruction are below 8. -/
theorem lt_of_wellFormed {i : Instr} (wf : i.wellFormed = true) {a : Byte} (ha : a ∈ i.regOperands) : a.toNat < 8 :=
  Nat.lt_succ_of_le (of_decide_eq_true (List.all_eq_true.mp wf a ha))

section
variable {s : State} (running : s.status = .running)
include running

theorem execAlu_noIndexError {opcode a b : Byte} {op : AluOp} (known : aluRequest opcode = .ok op)
    (ha : a.toNat < 8) (hb : b.toNat < 8) : ¬ Raises (execAlu opcode a b s) IsAnyIndexError := by
  refine not_raises_check (regOperand_noIndexError ha) fun ra => ?_
  refine not_raises_check (regOperand_noIndexError hb) fun rb => ?_
  rw [known, check_ok]
  cases op <;> exact not_raises_next running

theorem execJump_noIndexError {opcode a : Byte} (taken : Bool) (ha : a.toNat < 8) :
    ¬ Raises (execJump opcode a taken s) IsAnyIndexError := by
  refine not_raises_check (regOperand_noIndexError ha) fun ra => ?_
  cases taken <;> exact not_raises_next running

/-- A well-formed instruction run from a Running state never raises RegisterIndexError (10_state.md R22). -/
theorem exec_noIndexError {i : Instr} (wf : i.wellFormed = true) : ¬ Raises (exec i s) IsAnyIndexError := by
  have lt {a : Byte} (ha : a ∈ i.regOperands) : a.toNat < 8 := lt_of_wellFormed wf ha
  cases i with
  | hlt =>
    rintro ⟨t, record, next, faulted, -⟩
    cases next
    cases faulted
  | ldi a _ | prn a => exact not_raises_check (regOperand_noIndexError (lt (.head _))) fun _ => not_raises_next running
  | add a b => exact execAlu_noIndexError running aluRequest_add (lt (.head _)) (lt (.tail _ (.head _)))
  | mul a b => exact execAlu_noIndexError running aluRequest_mul (lt (.head _)) (lt (.tail _ (.head _)))
  | cmp a b => exact execAlu_noIndexError running aluRequest_cmp (lt (.head _)) (lt (.tail _ (.head _)))
  | push a =>
    exact not_raises_check (regOperand_noIndexError (lt (.head _))) fun _ =>
      not_raises_check pushSlot_noIndexError fun _ => not_raises_next running
  | pop a =>
    exact not_raises_check (regOperand_noIndexError (lt (.head _))) fun _ =>
      not_raises_check popByte_noIndexError fun _ =>
        not_raises_check checkIncrement_noIndexError fun _ => not_raises_next running
  | call a =>
    exact not_raises_check (regOperand_noIndexError (lt (.head _))) fun _ =>
      not_raises_check pushSlot_noIndexError fun _ =>
        not_raises_check returnAddress_noIndexError fun _ => not_raises_next running
  | ret =>
    exact not_raises_check popByte_noIndexError fun _ =>
      not_raises_check checkIncrement_noIndexError fun _ => not_raises_next running
  | jmp a | jeq a | jne a => exact execJump_noIndexError running _ (lt (.head _))

end

/-- Settles O46: the register checks come first and in the operands' order, and no later check raises their fault. -/
theorem registerOperandsChecked : Obligations.RegisterOperandsChecked := by
  unfold Obligations.RegisterOperandsChecked
  exact fun i s => ⟨fun index first => exec_badOperand s first, fun wf running => exec_noIndexError running wf⟩

end Sys2Proof.Machine
end

section
/-! PROOFS. Noninterference: changes of the state that an instruction neither sees nor overwrites (10_state.md R21,
R24; 20_memory.md R39). -/

namespace Sys2Proof.Machine

open Sys2Proof.Claim

/-- A register operand of `i` is `r`. -/
def Names (i : Instr) (r : RegIdx) : Prop := ∃ a ∈ i.regOperands, r.val = a.toNat

/-- `f` changes nothing that `i` reads, and commutes with every update that `i` makes. -/
structure Transparent (f : State → State) (i : Instr) : Prop where
  raise : ∀ s c, f (s.raise c) = (f s).raise c
  halt : ∀ s, f s.halt = (f s).halt
  emit : ∀ s v, f (s.emit v) = (f s).emit v
  setPc : ∀ s n, f (s.setPc n) = (f s).setPc n
  pc : ∀ s, (f s).pc = s.pc
  e : ∀ s, (f s).flags.e = s.flags.e
  reg : ∀ s r, Names i r → (f s).reg r = s.reg r
  setReg : ∀ s r v, Names i r → f (s.setReg r v) = (f s).setReg r v
  compare : ∀ a b, i = .cmp a b → ∀ s x y,
    f { s with flags := s.flags.compare x y } = { f s with flags := (f s).flags.compare x y }
  sp : usesStack i = true → ∀ s, (f s).sp = s.sp
  setSp : usesStack i = true → ∀ s v, f (s.setSp v) = (f s).setSp v
  mem : usesStack i = true → ∀ s, (f s).mem = s.mem
  store : usesStack i = true → ∀ s a v, f (s.store a v) = (f s).store a v

theorem Transparent.advance {f : State → State} {i : Instr} (h : Transparent f i) (s : State) (n : Nat) :
    f (s.advance n) = (f s).advance n := by
  simp only [State.advance, h.setPc, h.pc]

/-- A check commutes with `f` when it answers the same and its continuation commutes. -/
theorem check_commutes {α : Type} {f : State → State} {s t : State} {c c' : Except FaultCause α} {go go' : α → Result}
    (raise : ∀ cause, f (s.raise cause) = (f s).raise cause) (same : c' = c)
    (rest : ∀ x, c = .ok x → go x = .next t → go' x = .next (f t)) (h : s.check c go = .next t) :
    (f s).check c' go' = .next (f t) := by
  subst same
  rcases check_next h with ⟨x, rfl, h⟩ | ⟨cause, rfl, rfl⟩
  · exact rest x rfl h
  · rw [check_error, raise]

/-- The checks of a push see SP and memory only. -/
theorem pushSlot_congr {s s' : State} (opcode : Byte) (sp : s'.sp = s.sp) (mem : s'.mem = s.mem) :
    pushSlot opcode s' = pushSlot opcode s := by simp only [pushSlot, sp, mem]

/-- The checks of a pop up to its read see SP and memory only. -/
theorem popByte_congr {s s' : State} (opcode : Byte) (sp : s'.sp = s.sp) (mem : s'.mem = s.mem) :
    popByte opcode s' = popByte opcode s := by simp only [popByte, sp, mem]

/-- The last check of a pop sees SP only. -/
theorem checkIncrement_congr {s s' : State} (opcode x : Byte) (sp : s'.sp = s.sp) :
    checkIncrement opcode s' x = checkIncrement opcode s x := by simp only [checkIncrement, sp]

section
variable {f : State → State} {i : Instr} {s t : State}

theorem execAlu_commutes {opcode a b : Byte} {op : AluOp} (h : Transparent f i) (operands : i.regOperands = [a, b])
    (apply : ∀ ra rb, Names i ra → Names i rb → f (aluApply op ra rb s) = aluApply op ra rb (f s))
    (known : aluRequest opcode = .ok op) (next : execAlu opcode a b s = .next t) :
    execAlu opcode a b (f s) = .next (f t) := by
  refine check_commutes (h.raise s) rfl (fun ra ha next => ?_) next
  refine check_commutes (h.raise s) rfl (fun rb hb next => ?_) next
  have na : Names i ra := ⟨a, by simp [operands], regOperand_ok ha⟩
  have nb : Names i rb := ⟨b, by simp [operands], regOperand_ok hb⟩
  rw [known] at next ⊢
  cases next
  simp only [check_ok, h.advance, apply ra rb na nb]

theorem execJump_commutes {opcode a : Byte} {taken : Bool} (h : Transparent f i) (operands : i.regOperands = [a])
    (next : execJump opcode a taken s = .next t) : execJump opcode a taken (f s) = .next (f t) := by
  refine check_commutes (h.raise s) rfl (fun ra ha next => ?_) next
  have na : Names i ra := ⟨a, by simp [operands], regOperand_ok ha⟩
  cases next
  cases taken <;> simp [h.advance, h.setPc, h.reg _ _ na]

/-- An instruction commutes with every change that is transparent to it. -/
theorem exec_commutes (h : Transparent f i) (next : exec i s = .next t) : exec i (f s) = .next (f t) := by
  cases i with
  | hlt =>
    cases next
    simp [exec, execHlt, h.advance, h.halt]
  | ldi a b =>
    refine check_commutes (h.raise s) rfl (fun ra ha next => ?_) next
    have na : Names (.ldi a b) ra := ⟨a, .head _, regOperand_ok ha⟩
    cases next
    simp only [h.advance, h.setReg _ _ _ na]
  | prn a =>
    refine check_commutes (h.raise s) rfl (fun ra ha next => ?_) next
    have na : Names (.prn a) ra := ⟨a, .head _, regOperand_ok ha⟩
    cases next
    simp only [h.advance, h.emit, h.reg _ _ na]
  | add a b =>
    refine execAlu_commutes h rfl (fun ra rb na nb => ?_) aluRequest_add next
    simp only [aluApply, h.setReg _ _ _ na, h.reg _ _ na, h.reg _ _ nb]
  | mul a b =>
    refine execAlu_commutes h rfl (fun ra rb na nb => ?_) aluRequest_mul next
    simp only [aluApply, h.setReg _ _ _ na, h.reg _ _ na, h.reg _ _ nb]
  | cmp a b =>
    refine execAlu_commutes h rfl (fun ra rb na nb => ?_) aluRequest_cmp next
    simp only [aluApply, h.compare a b rfl, h.reg _ _ na, h.reg _ _ nb]
  | push a =>
    refine check_commutes (h.raise s) rfl (fun ra ha next => ?_) next
    refine check_commutes (h.raise s) (pushSlot_congr _ (h.sp rfl s) (h.mem rfl s)) (fun slot _ next => ?_) next
    have na : Names (.push a) ra := ⟨a, .head _, regOperand_ok ha⟩
    cases next
    simp only [h.advance, h.store rfl, h.setSp rfl, reg_setSp, h.reg _ _ na]
  | pop a =>
    refine check_commutes (h.raise s) rfl (fun ra ha next => ?_) next
    refine check_commutes (h.raise s) (popByte_congr _ (h.sp rfl s) (h.mem rfl s)) (fun v _ next => ?_) next
    refine check_commutes (h.raise s) ?_ (fun _ _ next => ?_) next
    · rw [h.sp rfl, checkIncrement_congr _ _ (h.sp rfl s)]
    · have na : Names (.pop a) ra := ⟨a, .head _, regOperand_ok ha⟩
      cases next
      simp only [h.advance, h.setSp rfl, ← h.setReg _ _ _ na, h.sp rfl]
  | call a =>
    refine check_commutes (h.raise s) rfl (fun ra ha next => ?_) next
    refine check_commutes (h.raise s) (pushSlot_congr _ (h.sp rfl s) (h.mem rfl s)) (fun slot _ next => ?_) next
    refine check_commutes (h.raise s) (by rw [h.pc]) (fun back _ next => ?_) next
    have na : Names (.call a) ra := ⟨a, .head _, regOperand_ok ha⟩
    cases next
    simp only [h.setPc, h.store rfl, h.setSp rfl, reg_setSp, h.reg _ _ na]
  | ret =>
    refine check_commutes (h.raise s) (popByte_congr _ (h.sp rfl s) (h.mem rfl s)) (fun v _ next => ?_) next
    refine check_commutes (h.raise s) ?_ (fun _ _ next => ?_) next
    · rw [h.sp rfl, checkIncrement_congr _ _ (h.sp rfl s)]
    · cases next
      simp only [h.setPc, h.setSp rfl, h.sp rfl]
  | jmp a => exact execJump_commutes h rfl next
  | jeq a =>
    show execJump _ _ (f s).flags.e _ = _
    rw [h.e]
    exact execJump_commutes h rfl next
  | jne a =>
    show execJump _ _ (!(f s).flags.e) _ = _
    rw [h.e]
    exact execJump_commutes h rfl next

end

/-! ### A register that is not named -/

theorem setReg_setReg_comm (s : State) {q r : RegIdx} (v w : Byte) (h : r ≠ q) :
    (s.setReg r w).setReg q v = (s.setReg q v).setReg r w := by
  have : r.val ≠ q.val := fun e => h (Fin.ext e)
  simp [State.setReg, Vector.set_comm _ _ this]

/-- A register that `i` neither names nor uses as SP is transparent to it (10_state.md R20, R21). -/
theorem transparent_setReg {i : Instr} {q : RegIdx} (v : Byte) (unnamed : ¬ Names i q)
    (notSp : usesStack i = true → Config.spIndex ≠ q) : Transparent (·.setReg q v) i := by
  have other {r : RegIdx} (named : Names i r) : r ≠ q := fun e => unnamed (e ▸ named)
  exact {
    raise := fun _ _ => rfl
    halt := fun _ => rfl
    emit := fun _ _ => rfl
    setPc := fun _ _ => rfl
    pc := fun _ => rfl
    e := fun _ => rfl
    reg := fun s r named => reg_setReg_other s v (other named)
    setReg := fun s r w named => setReg_setReg_comm s v w (other named)
    compare := fun _ _ _ _ _ _ => rfl
    sp := fun stack s => reg_setReg_other s v (notSp stack)
    setSp := fun stack s w => setReg_setReg_comm s v w (notSp stack)
    mem := fun _ _ => rfl
    store := fun _ _ _ _ => rfl }

/-- Settles O48: a register that is neither named nor SP is transparent to the instruction. -/
theorem registersRead : Obligations.RegistersRead := by
  unfold Obligations.RegistersRead
  intro i s t r v hr unnamed notSp next
  have transparent : Transparent (·.setReg ⟨r, hr⟩ v) i :=
    transparent_setReg v (fun ⟨a, ha, e⟩ => unnamed a ha e.symm) fun stack e => notSp stack (congrArg Fin.val e).symm
  exact exec_commutes transparent next

/-! ### L and G -/

/-- L and G are transparent to every instruction but CMP (10_state.md R24). -/
theorem transparent_withLG {i : Instr} (l g : Bool) (noCmp : ∀ a b, i ≠ .cmp a b) :
    Transparent (withLG · l g) i where
  raise _ _ := rfl
  halt _ := rfl
  emit _ _ := rfl
  setPc _ _ := rfl
  pc _ := rfl
  e _ := rfl
  reg _ _ _ := rfl
  setReg _ _ _ _ := rfl
  compare a b e := absurd e (noCmp a b)
  sp _ _ := rfl
  setSp _ _ _ := rfl
  mem _ _ := rfl
  store _ _ _ _ := rfl

/-- A comparison decides the new E without L and G. -/
theorem compare_e_withLG (f : Flags) (l g : Bool) (x y : Byte) :
    ((⟨f.e, l, g⟩ : Flags).compare x y).e = (f.compare x y).e := by
  unfold Flags.compare
  split
  · rfl
  · split <;> rfl

/-- CMP on two registers (41_alu.md R86). -/
theorem exec_cmp_of_lt {a b : Byte} (s : State) (ha : a.toNat < 8) (hb : b.toNat < 8) :
    exec (.cmp a b) s =
      .next (({ s with flags := s.flags.compare s.regs[a.toNat] s.regs[b.toNat] } : State).advance 2) := by
  show execAlu Opcode.cmp a b s = _
  unfold execAlu
  rw [check_regOperand_of_lt _ _ ha, check_regOperand_of_lt _ _ hb, aluRequest_cmp]
  rfl

/-- L and G before a CMP change nothing after it but L and G. -/
theorem exec_cmp_withLG {a b : Byte} {s t : State} (l g : Bool) (h : exec (.cmp a b) s = .next t) :
    ∃ t', exec (.cmp a b) (withLG s l g) = .next t' ∧ t' = withLG t t'.flags.l t'.flags.g := by
  cases bad : (Instr.cmp a b).regOperands.find? (fun x => 8 ≤ x.toNat) with
  | some index =>
    rw [exec_badOperand s bad] at h
    cases h
    exact ⟨_, exec_badOperand _ bad, rfl⟩
  | none =>
    have lt : ∀ x ∈ [a, b], x.toNat < 8 := by simpa [Instr.regOperands] using bad
    have ha := lt a (.head _)
    have hb := lt b (.tail _ (.head _))
    rw [exec_cmp_of_lt s ha hb] at h
    cases h
    refine ⟨_, exec_cmp_of_lt (withLG s l g) ha hb, state_ext rfl ?_ rfl rfl rfl rfl⟩
    exact congrArg (fun e => (⟨e, _, _⟩ : Flags)) (compare_e_withLG s.flags l g _ _)

/-- Settles O21: the frame of the flags, the two conditional jumps' equations, and L and G changed before any
instruction. -/
theorem flagAccess : Obligations.FlagAccess := by
  unfold Obligations.FlagAccess
  refine ⟨fun i s t noCmp h => exec_flags h noCmp, fun a s ha => ⟨exec_jeq_of_lt s ha, exec_jne_of_lt s ha⟩, ?_⟩
  intro i s t l g h
  by_cases isCmp : ∃ a b, i = .cmp a b
  · obtain ⟨a, b, rfl⟩ := isCmp
    exact exec_cmp_withLG l g h
  · have noCmp : ∀ a b, i ≠ .cmp a b := fun a b e => isCmp ⟨a, b, e⟩
    exact ⟨withLG t l g, exec_commutes (transparent_withLG l g noCmp) h, rfl⟩

end Sys2Proof.Machine
end

section
/-! PROOFS. Memory: the two ports, and which instructions use them (20_memory.md). -/

namespace Sys2Proof.Machine

open Sys2Proof.Claim

/-! ### The ports -/

/-- Settles O15: the write port stores in range or fails, and a store to canonical memory reads back at its own address
only. -/
theorem memoryPortsReadAndWrite : Obligations.MemoryPortsReadAndWrite := by
  unfold Obligations.MemoryPortsReadAndWrite
  intro m a v wf
  rcases m.write_cases a v with ⟨inside, stored⟩ | ⟨outside, failed⟩
  · refine ⟨fun _ => ⟨Memory.read_of_lt inside, m.store a v, stored, m.store_size a v, ?_, ?_⟩,
      fun outside => absurd inside (Nat.not_lt.mpr outside)⟩
    · exact Memory.read_store_same v wf inside
    · exact fun b other => m.read_store_other v other
  · exact ⟨fun inside => absurd inside (Nat.not_lt.mpr outside), fun _ => ⟨Memory.read_of_ge outside, failed⟩⟩

/-! ### Who uses them -/

/-- Memory is transparent to every instruction but PUSH, POP, CALL and RET. -/
theorem transparent_withMem {i : Instr} (m : Memory) (noStack : usesStack i = false) :
    Transparent (fun s => { s with mem := m }) i where
  raise _ _ := rfl
  halt _ := rfl
  emit _ _ := rfl
  setPc _ _ := rfl
  pc _ := rfl
  e _ := rfl
  reg _ _ _ := rfl
  setReg _ _ _ _ := rfl
  compare _ _ _ _ _ _ := rfl
  sp _ _ := rfl
  setSp _ _ _ := rfl
  mem stack := absurd stack (by simp [noStack])
  store stack := absurd stack (by simp [noStack])

/-- Memory changes in a PUSH or a CALL only (90_conflicts.md C5). -/
theorem push_or_call_of_mem_ne {i : Instr} {s t : State} (h : exec i s = .next t) (changed : t.mem ≠ s.mem) :
    ∃ a, i = .push a ∨ i = .call a :=
  ((exec_mem h).resolve_left changed).1

/-- An instruction that does not use the stack leaves memory as it was. -/
theorem exec_mem_of_not_usesStack {i : Instr} {s t : State} (noStack : usesStack i = false)
    (h : exec i s = .next t) : t.mem = s.mem := by
  by_contra changed
  obtain ⟨a, rfl | rfl⟩ := push_or_call_of_mem_ne h changed <;> cases noStack

/-- Settles O49: memory is transparent to an instruction that does not use the stack, and the frame of memory leaves
PUSH and CALL. -/
theorem memoryAccess : Obligations.MemoryAccess := by
  unfold Obligations.MemoryAccess
  refine ⟨fun i s t m noStack h => ⟨exec_mem_of_not_usesStack noStack h, ?_⟩, fun i s t => push_or_call_of_mem_ne⟩
  exact exec_commutes (transparent_withMem m noStack) h

end Sys2Proof.Machine
end

section
/-! PROOFS. The encoding: a table row and its words, both ways, and what a fetch and a dispatch make of an opcode byte
(30_encoding.md). -/

namespace Sys2Proof.Machine

open Sys2Proof.Claim

/-! ### A table row and its words -/

@[simp] theorem lookupOpcode_opcode (m : Mnemonic) : lookupOpcode m.opcode = some m := by
  cases m <;> rfl

@[simp] theorem operandCount_opcode (m : Mnemonic) : operandCount m.opcode = m.count :=
  (lookupOpcode_some (lookupOpcode_opcode m)).2

/-- No row of 30_encoding.md R63 has more than operand_a and operand_b (R61). -/
theorem count_le_two (m : Mnemonic) : m.count ≤ 2 := by
  cases m <;> decide

/-- Every instruction is a row of the table with operands. -/
theorem exists_eq_withOperands (i : Instr) : ∃ (m : Mnemonic) (a b : Byte), i = m.withOperands a b := by
  cases i with
  | hlt => exact ⟨.hlt, 0, 0, rfl⟩
  | ldi a b => exact ⟨.ldi, a, b, rfl⟩
  | prn a => exact ⟨.prn, a, 0, rfl⟩
  | add a b => exact ⟨.add, a, b, rfl⟩
  | mul a b => exact ⟨.mul, a, b, rfl⟩
  | push a => exact ⟨.push, a, 0, rfl⟩
  | pop a => exact ⟨.pop, a, 0, rfl⟩
  | call a => exact ⟨.call, a, 0, rfl⟩
  | ret => exact ⟨.ret, 0, 0, rfl⟩
  | cmp a b => exact ⟨.cmp, a, b, rfl⟩
  | jmp a => exact ⟨.jmp, a, 0, rfl⟩
  | jeq a => exact ⟨.jeq, a, 0, rfl⟩
  | jne a => exact ⟨.jne, a, 0, rfl⟩

/-- An encoding is the row's opcode and as many of operand_a and operand_b as the row counts (R56, R61). -/
theorem encode_withOperands (m : Mnemonic) (a b : Byte) :
    encode (m.withOperands a b) = m.opcode :: [a, b].take m.count := by
  cases m <;> rfl

/-- The operands that a row does not count do not matter to its instruction. -/
theorem withOperands_take_append (m : Mnemonic) (a b : Byte) (rest : List Byte) :
    m.withOperands (([a, b].take m.count ++ rest).getD 0 0) (([a, b].take m.count ++ rest).getD 1 0) =
      m.withOperands a b := by
  cases m <;> rfl

/-- The first `n` of a list's first two entries are the list's first `n`. -/
theorem take_getD_getD {n : Nat} (two : n ≤ 2) (bytes : List Byte) (enough : n ≤ bytes.length) :
    [bytes.getD 0 0, bytes.getD 1 0].take n = bytes.take n := by
  match n, bytes, two, enough with
  | 0, _, _, _ => rfl
  | 1, _ :: _, _, _ => rfl
  | 2, _ :: _ :: _, _, _ => rfl

/-- What decodes: an opcode of the table, and at least as many bytes after it as its row counts. -/
theorem decode_cons_eq_ok_iff {opcode : Byte} {bytes rest : List Byte} {i : Instr} :
    decode (opcode :: bytes) = .ok (i, rest) ↔
      ∃ m : Mnemonic, opcode = m.opcode ∧ m.count ≤ bytes.length ∧
        i = m.withOperands (bytes.getD 0 0) (bytes.getD 1 0) ∧ rest = bytes.drop m.count := by
  constructor
  · intro h
    rw [decode] at h
    split at h
    · cases h
    · split at h
      · cases h
      · rename_i enough _ m found
        cases h
        obtain ⟨row, count⟩ := lookupOpcode_some found
        rw [count] at enough ⊢
        exact ⟨m, row, Nat.le_of_not_lt enough, rfl, rfl⟩
  · rintro ⟨m, rfl, enough, rfl, rfl⟩
    simp [decode, Nat.not_lt.mpr enough]

theorem decode_encode (i : Instr) (rest : List Byte) : decode (encode i ++ rest) = .ok (i, rest) := by
  obtain ⟨m, a, b, rfl⟩ := exists_eq_withOperands i
  have length : ([a, b].take m.count).length = m.count := by simp [count_le_two]
  rw [encode_withOperands, List.cons_append, decode_cons_eq_ok_iff]
  refine ⟨m, rfl, ?_, (withOperands_take_append m a b rest).symm, ?_⟩
  · rw [List.length_append, length]
    exact Nat.le_add_right _ _
  · exact (List.drop_left' length).symm

/-- Settles O1: an encoding is a table row's opcode with the operands that the row counts, which is what decodes. -/
theorem decodeOfEncode : Obligations.DecodeOfEncode := by
  unfold Obligations.DecodeOfEncode
  exact decode_encode

/-- Settles O2: bytes that decode start with a row's opcode, and the bytes after it are those the row counts and the
rest. -/
theorem decodedBytesAreTheEncoding : Obligations.DecodedBytesAreTheEncoding := by
  unfold Obligations.DecodedBytesAreTheEncoding
  intro bytes rest i h
  cases bytes with
  | nil => cases h
  | cons opcode operands =>
    obtain ⟨m, rfl, enough, rfl, rfl⟩ := decode_cons_eq_ok_iff.mp h
    rw [encode_withOperands, take_getD_getD (count_le_two m) operands enough, List.cons_append, List.take_append_drop]

/-- Settles O3: each word is, bit for bit, the encoding of its row's instruction, which decodes to it. -/
theorem tableWordsDecode : Obligations.TableWordsDecode := by
  unfold Obligations.TableWordsDecode
  exact ⟨decode_encode .hlt [], decode_encode (.ldi 5 200) [], decode_encode (.prn 3) [],
    decode_encode (.add 1 2) [], decode_encode (.mul 1 2) [], decode_encode (.push 4) [], decode_encode (.pop 4) [],
    decode_encode (.call 6) [], decode_encode .ret [], decode_encode (.cmp 1 2) [], decode_encode (.jmp 6) [],
    decode_encode (.jeq 6) [], decode_encode (.jne 6) []⟩

/-! ### The fetch and the dispatch of an opcode byte -/

/-- A fetch answers when the opcode and the bytes that its top two bits count lie in memory (R57, 40_cycle.md R71). -/
theorem fetch_of_fits {s : State} {opcode : Byte} (ho : s.mem.read s.pc = .ok opcode)
    (fits : s.pc + opcode.toNat / 64 < s.mem.size) :
    ∃ operands, s.mem.readSeq (s.pc + 1) (opcode.toNat / 64) = .ok operands ∧ fetch s = .ok ⟨opcode, operands⟩ := by
  obtain ⟨operands, hs⟩ := s.mem.readSeq_of_le (opcode.toNat / 64) (s.pc + 1) (by omega)
  exact ⟨operands, hs, fetch_of_reads ho (by rw [operandCount_eq_div, hs])⟩

/-- Settles O5: the operand reads all answer, each with the byte at its own address. -/
theorem fetchReadsCountedOperands : Obligations.FetchReadsCountedOperands := by
  unfold Obligations.FetchReadsCountedOperands
  intro s opcode ho fits
  obtain ⟨operands, hs, hf⟩ := fetch_of_fits ho fits
  exact ⟨⟨opcode, operands⟩, hf, rfl, (s.mem.readSeq_ok _ _ _ hs).1, s.mem.read_of_readSeq _ _ _ hs⟩

theorem opcode_mem_validOpcodes (m : Mnemonic) : m.opcode ∈ validOpcodes := by
  cases m <;> decide

/-- Bytes whose opcode is not in the table do not decode (R64). -/
theorem decode_error_of_not_valid {opcode : Byte} (unknown : opcode ∉ validOpcodes) (bytes : List Byte) :
    ∃ r, decode (opcode :: bytes) = .error r := by
  match h : decode (opcode :: bytes) with
  | .error r => exact ⟨r, rfl⟩
  | .ok (_, _) =>
    obtain ⟨m, rfl, -⟩ := decode_cons_eq_ok_iff.mp h
    exact absurd (opcode_mem_validOpcodes m) unknown

/-- The dispatch of fetched bytes that do not decode raises DecodeError (40_cycle.md R72). -/
theorem step_of_decode_error {s : State} {ir : Fetched} {r : DecodeReject} (running : s.status = .running)
    (hf : fetch s = .ok ir) (hd : decode (ir.opcode :: ir.operands) = .error r) :
    step s = .next (s.raise (.decode ir.opcode)) := by
  simp [step, running, hf, hd]

/-- 0x00 and class 11 are outside the table (R58, R64). -/
theorem validOpcodes_bounds : ∀ opcode ∈ validOpcodes, opcode ≠ 0 ∧ opcode.toNat < 0xC0 := by decide

/-- The bytes below 256 that are in the table are those that the table lists, each once. -/
theorem filter_validOpcodes_perm :
    ((List.range 256).filter (fun n => BitVec.ofNat 8 n ∈ validOpcodes)).Perm (validOpcodes.map BitVec.toNat) := by
  refine (List.perm_ext_iff_of_nodup (List.nodup_range.filter _) (by decide)).mpr fun n => ?_
  simp only [List.mem_filter, List.mem_range, decide_eq_true_eq, List.mem_map]
  constructor
  · exact fun ⟨below, valid⟩ => ⟨_, valid, (BitVec.toNat_ofNat n 8).trans (Nat.mod_eq_of_lt below)⟩
  · rintro ⟨opcode, valid, rfl⟩
    exact ⟨opcode.isLt, by simpa using valid⟩

/-- The table's 13 bytes leave 243 of the 256 (R64). -/
theorem length_filter_not_validOpcodes :
    ((List.range 256).filter (fun n => BitVec.ofNat 8 n ∉ validOpcodes)).length = 243 := by
  have split := (List.range 256).length_eq_length_filter_add (fun n => BitVec.ofNat 8 n ∈ validOpcodes)
  have thirteen : (validOpcodes.map BitVec.toNat).length = 13 := rfl
  simp only [List.length_range, filter_validOpcodes_perm.length_eq, thirteen, ← decide_not] at split
  omega

/-- Settles O4: the fetch answers and the bytes do not decode; the table's bytes are counted and bounded by their
list. -/
theorem unknownOpcodeRaisesDecodeError : Obligations.UnknownOpcodeRaisesDecodeError := by
  unfold Obligations.UnknownOpcodeRaisesDecodeError
  refine ⟨fun s opcode unknown running ho fits => ?_, ?_, fun opcode outside valid => ?_⟩
  · obtain ⟨operands, -, hf⟩ := fetch_of_fits ho fits
    obtain ⟨r, hd⟩ := decode_error_of_not_valid unknown operands
    exact ⟨_, ⟨s.pc, .decode opcode⟩, step_of_decode_error running hf hd, rfl, rfl⟩
  · exact length_filter_not_validOpcodes
  · obtain ⟨nonzero, below⟩ := validOpcodes_bounds opcode valid
    exact outside.elim nonzero (Nat.not_le.mpr below)

end Sys2Proof.Machine
end

section
/-! PROOFS. The cycle: what each outcome of the fetch and of the dispatch makes of a step, when a step answers, what a
fault leaves, and where pc goes (40_cycle.md). -/

namespace Sys2Proof.Machine

open Sys2Proof.Claim

/-! ### Which step a fetch leads to -/

/-- A fault of the fetch is the step's fault (40_cycle.md R76, R78). -/
theorem step_of_fetch_error {s : State} {c : FaultCause} (running : s.status = .running) (hf : fetch s = .error c) :
    step s = .next (s.raise c) := by
  simp [step, running, hf]

/-- Fetched bytes that decode are executed (40_cycle.md R72, R73). -/
theorem step_of_decode {s : State} {ir : Fetched} {i : Instr} {rest : List Byte} (running : s.status = .running)
    (hf : fetch s = .ok ir) (hd : decode (ir.opcode :: ir.operands) = .ok (i, rest)) : step s = exec i s := by
  simp [step, running, hf, hd]

theorem fetch_of_pc_ge {s : State} (outside : s.mem.size ≤ s.pc) : fetch s = .error (.memoryBounds s.pc) := by
  simp [fetch, Memory.read_of_ge outside]

/-- Settles O7: the opcode's read is out of range, so the fetch fails with pc itself. -/
theorem fetchOutsideMemoryFaults : Obligations.FetchOutsideMemoryFaults := by
  unfold Obligations.FetchOutsideMemoryFaults
  exact fun s running outside => step_of_fetch_error running (fetch_of_pc_ge outside)

/-- Operand bytes that reach past the memory: the first address outside is N (40_cycle.md R71). -/
theorem fetch_of_operands_outside {s : State} {opcode : Byte} (ho : s.mem.read s.pc = .ok opcode)
    (outside : s.mem.size ≤ s.pc + opcode.toNat / 64) : fetch s = .error (.memoryBounds s.mem.size) := by
  have inside : s.pc < s.mem.size := Memory.lt_of_read ho
  have hs : s.mem.readSeq (s.pc + 1) (operandCount opcode) = .error (.memoryBounds s.mem.size) :=
    s.mem.readSeq_error _ _ inside (by rw [operandCount_eq_div]; omega)
  simp [fetch, ho, hs]

/-- Settles O8: the fetch fails before the opcode is looked up, whatever the opcode is. -/
theorem operandFetchOutsideMemoryFaults : Obligations.OperandFetchOutsideMemoryFaults := by
  unfold Obligations.OperandFetchOutsideMemoryFaults
  exact fun s opcode running ho outside => step_of_fetch_error running (fetch_of_operands_outside ho outside)

/-- An encoding has as many bytes after its opcode as the opcode's top two bits count (30_encoding.md R57). -/
theorem encode_eq_cons (i : Instr) :
    ∃ opcode operands, encode i = opcode :: operands ∧ operands.length = operandCount opcode := by
  obtain ⟨m, a, b, rfl⟩ := exists_eq_withOperands i
  exact ⟨m.opcode, [a, b].take m.count, encode_withOperands m a b, by simp [count_le_two]⟩

/-- Where an instruction's encoding stands at pc, a fetch reads just that encoding. -/
theorem fetch_of_encode {s : State} {i : Instr}
    (atPc : ∀ k (h : k < (encode i).length), s.mem.read (s.pc + k) = .ok (encode i)[k]) :
    ∃ ir, fetch s = .ok ir ∧ ir.opcode :: ir.operands = encode i := by
  obtain ⟨opcode, operands, encoded, counted⟩ := encode_eq_cons i
  simp only [encoded] at atPc ⊢
  have ho : s.mem.read s.pc = .ok opcode := atPc 0 (Nat.zero_lt_succ _)
  have hs : s.mem.readSeq (s.pc + 1) operands.length = .ok operands :=
    s.mem.readSeq_of_reads operands _ fun k hk => by
      simpa [Nat.add_assoc, Nat.add_comm 1 k] using atPc (k + 1) (Nat.succ_lt_succ hk)
  exact ⟨⟨opcode, operands⟩, fetch_of_reads ho (counted ▸ hs), rfl⟩

/-- Where an instruction's encoding stands at pc, a step of a Running machine executes it (40_cycle.md R73). -/
theorem step_of_encode {s : State} {i : Instr} (running : s.status = .running)
    (atPc : ∀ k (h : k < (encode i).length), s.mem.read (s.pc + k) = .ok (encode i)[k]) : step s = exec i s := by
  obtain ⟨ir, hf, bytes⟩ := fetch_of_encode atPc
  have hd : decode (encode i) = .ok (i, []) := by simpa using decode_encode i []
  exact step_of_decode running hf (bytes ▸ hd)

/-- Settles O6: bytes that decode start with the encoding of what they decode to, so that encoding stands at pc. -/
theorem stepRunsTheDecodedInstruction : Obligations.StepRunsTheDecodedInstruction := by
  unfold Obligations.StepRunsTheDecodedInstruction
  intro s i bytes rest running hd reads
  obtain rfl : bytes = encode i ++ rest := decodedBytesAreTheEncoding bytes rest i hd
  refine step_of_encode running fun k hk => ?_
  rw [reads k (by rw [List.length_append]; omega), List.getElem_append_left hk]

/-! ### When a step answers -/

/-- Settles O9: by inversion of a step that answers. -/
theorem noStepUnlessRunning : Obligations.NoStepUnlessRunning := by
  unfold Obligations.NoStepUnlessRunning
  exact fun s t h => (step_next h).1

theorem execAlu_answers (opcode a b : Byte) (s : State) : ∃ t, execAlu opcode a b s = .next t :=
  check_answers fun _ => check_answers fun _ => check_answers fun _ => ⟨_, rfl⟩

theorem execJump_answers (opcode a : Byte) (taken : Bool) (s : State) : ∃ t, execJump opcode a taken s = .next t :=
  check_answers fun _ => ⟨_, rfl⟩

/-- Every instruction is a chain of checks, each of which raises or goes on, that ends in a next state (40_cycle.md
R79). -/
theorem exec_answers (i : Instr) (s : State) : ∃ t, exec i s = .next t := by
  cases i with
  | hlt => exact ⟨_, rfl⟩
  | ldi | prn => exact check_answers fun _ => ⟨_, rfl⟩
  | add | mul | cmp => exact execAlu_answers _ _ _ s
  | push | ret => exact check_answers fun _ => check_answers fun _ => ⟨_, rfl⟩
  | pop | call => exact check_answers fun _ => check_answers fun _ => check_answers fun _ => ⟨_, rfl⟩
  | jmp | jeq | jne => exact execJump_answers _ _ _ s

theorem step_answers {s : State} (running : s.status = .running) : ∃ t, step s = .next t := by
  cases hf : fetch s with
  | error c => exact ⟨_, step_of_fetch_error running hf⟩
  | ok ir =>
    cases hd : decode (ir.opcode :: ir.operands) with
    | error r => exact ⟨_, step_of_decode_error running hf hd⟩
    | ok decoded => exact step_of_decode running hf hd ▸ exec_answers decoded.1 s

/-- Settles O10: a step ends in a fault of the fetch, in DecodeError or in `exec`, and each answers. -/
theorem runningMachineSteps : Obligations.RunningMachineSteps := by
  unfold Obligations.RunningMachineSteps
  exact ⟨exec_answers, fun _ => step_answers⟩

/-! ### What a fault leaves -/

/-- A step that ends Faulted took the record's fault from the state before it, and not the ALU's (40_cycle.md R76,
R81). -/
theorem step_faulted {s t : State} {record : FaultRecord} (h : step s = .next t)
    (faulted : t.status = .faulted record) :
    t = { s with status := .faulted record } ∧ record.pc = s.pc ∧ record.cause ≠ .aluUnsupported := by
  obtain ⟨running, ⟨cause, known, rfl⟩ | ⟨i, -, done⟩⟩ := step_raised_or_completes h
  · cases faulted
    exact ⟨rfl, rfl, known⟩
  · exact absurd faulted (done.not_faulted running record)

/-- Settles O11: a completed instruction is not Faulted, and a fault is taken from the state before the step. -/
theorem faultedCycleChangesOnlyStatus : Obligations.FaultedCycleChangesOnlyStatus := by
  unfold Obligations.FaultedCycleChangesOnlyStatus
  intro s t record h faulted
  obtain ⟨same, pc, -⟩ := step_faulted h faulted
  exact ⟨same, pc⟩

/-- Settles O23: no check of a cycle fails with the ALU's error, since the three opcodes sent to it are its own. -/
theorem aluErrorNeverRaised : Obligations.AluErrorNeverRaised := by
  unfold Obligations.AluErrorNeverRaised
  intro s t pc h faulted
  obtain ⟨-, -, known⟩ := step_faulted h faulted
  exact known rfl

/-! ### Where pc goes -/

/-- The bytes of an instruction are counted by its own opcode's top two bits (30_encoding.md R57). -/
theorem encode_length (i : Instr) : (encode i).length = 1 + ((encode i).headD 0).toNat / 64 := by
  obtain ⟨opcode, operands, encoded, counted⟩ := encode_eq_cons i
  rw [encoded, List.length_cons, counted, operandCount_eq_div, Nat.add_comm]
  rfl

/-- The register an operand names is in the register file. -/
theorem regs_getElem?_of_val_eq {a : Byte} {ra : RegIdx} (s : State) (na : ra.val = a.toNat) :
    s.regs[a.toNat]? = some (s.reg ra) := by
  rw [← na]
  exact Vector.getElem?_eq_getElem ra.isLt

section
variable {a : Byte} {s t : State}

theorem Completes.pc_of_isSequential {i : Instr} (h : Completes s i t) (sequential : isSequential i = true) :
    t.pc = s.pc + (encode i).length := by
  cases h with
  | call | ret | jmp | jeq | jne => cases sequential
  | hlt | ldi | prn | add | mul | push | pop | cmp => rfl

theorem Completes.pc_of_jmp (h : Completes s (.jmp a) t) :
    ∃ v : Byte, s.regs[a.toNat]? = some v ∧ t.pc = v.toNat := by
  cases h with
  | jmp ra na => exact ⟨_, regs_getElem?_of_val_eq s na, rfl⟩

/-- CALL's target is the register's value from before, unless the register is SP (44_control_transfer.md R100). -/
theorem Completes.pc_of_call (h : Completes s (.call a) t) (notSp : a ≠ 7) :
    ∃ v : Byte, s.regs[a.toNat]? = some v ∧ t.pc = v.toNat := by
  cases h with
  | call ra na =>
    have other : ra ≠ Config.spIndex := fun e => notSp (BitVec.eq_of_toNat_eq (by rw [← na, e]; rfl))
    exact ⟨_, regs_getElem?_of_val_eq s na, by simp [other]⟩

theorem Completes.pc_of_ret (h : Completes s .ret t) :
    ∃ v : Byte, s.mem.read s.regs[7].toNat = .ok v ∧ t.pc = v.toNat := by
  cases h with
  | ret v _ read => exact ⟨v, read, rfl⟩

theorem Completes.pc_of_jeq (h : Completes s (.jeq a) t) :
    ∃ v : Byte, s.regs[a.toNat]? = some v ∧ t.pc = if s.flags.e then v.toNat else s.pc + 2 := by
  cases h with
  | jeq ra na => exact ⟨_, regs_getElem?_of_val_eq s na, by cases s.flags.e <;> rfl⟩

theorem Completes.pc_of_jne (h : Completes s (.jne a) t) :
    ∃ v : Byte, s.regs[a.toNat]? = some v ∧ t.pc = if s.flags.e then s.pc + 2 else v.toNat := by
  cases h with
  | jne ra na => exact ⟨_, regs_getElem?_of_val_eq s na, by cases s.flags.e <;> rfl⟩

end

/-- Settles O12: without a fault the instruction completed, and each clause is its group's pc. -/
theorem pcSequencing : Obligations.PcSequencing := by
  unfold Obligations.PcSequencing
  intro i s t _ h unfaulted
  have done : Completes s i t := (exec_next h).resolve_right fun raised => unfaulted raised.isFaulted
  refine ⟨fun sequential => ?_, ?_, ?_, ?_, ?_⟩
  · rw [done.pc_of_isSequential sequential, encode_length, Nat.add_assoc]
  · rintro a (rfl | ⟨rfl, notSp⟩)
    · exact done.pc_of_jmp
    · exact done.pc_of_call notSp
  · rintro rfl
    exact done.pc_of_ret
  · rintro a rfl
    exact done.pc_of_jeq
  · rintro a rfl
    exact done.pc_of_jne

end Sys2Proof.Machine
end

section
/-! PROOFS. The ALU instructions: the whole next state of ADD, MUL and CMP (41_alu.md). -/

namespace Sys2Proof.Machine

open Sys2Proof.Claim

/-! ### Register operands above 7 -/

/-- The first register operand above 7 is the one whose fault is raised. -/
theorem raises_of_find_badOperand {i : Instr} {index : Byte} (s : State)
    (first : i.regOperands.find? (fun x => 8 ≤ x.toNat) = some index) : Raises (exec i s) (IsIndexError index) :=
  ⟨_, _, exec_badOperand s first, rfl, _, rfl⟩

theorem raises_of_fst_badOperand {i : Instr} {a : Byte} {others : List Byte} (s : State)
    (operands : i.regOperands = a :: others) (ha : 8 ≤ a.toNat) : Raises (exec i s) (IsIndexError a) := by
  refine raises_of_find_badOperand s ?_
  rw [operands, List.find?_cons_of_pos (by simpa using ha)]

theorem raises_of_snd_badOperand {i : Instr} {a b : Byte} {others : List Byte} (s : State)
    (operands : i.regOperands = a :: b :: others) (ha : a.toNat < 8) (hb : 8 ≤ b.toNat) :
    Raises (exec i s) (IsIndexError b) := by
  refine raises_of_find_badOperand s ?_
  rw [operands, List.find?_cons_of_neg (by simpa using ha), List.find?_cons_of_pos (by simpa using hb)]

/-! ### What the ALU writes -/

/-- An ALU instruction on two registers applies its operation and advances (41_alu.md R82). -/
theorem execAlu_of_lt {opcode a b : Byte} {op : AluOp} (s : State) (known : aluRequest opcode = .ok op)
    (ha : a.toNat < 8) (hb : b.toNat < 8) :
    execAlu opcode a b s = .next ((aluApply op ⟨a.toNat, ha⟩ ⟨b.toNat, hb⟩ s).advance 2) := by
  unfold execAlu
  rw [check_regOperand_of_lt _ _ ha, check_regOperand_of_lt _ _ hb, known, check_ok]

theorem compare_of_eq {x y : Byte} (f : Flags) (h : x = y) : f.compare x y = ⟨true, f.l, f.g⟩ := if_pos h

theorem compare_of_lt {x y : Byte} (f : Flags) (h : x.toNat < y.toNat) : f.compare x y = ⟨f.e, true, f.g⟩ := by
  have ne : x ≠ y := fun e => Nat.ne_of_lt h (congrArg _ e)
  rw [Flags.compare, if_neg ne, if_pos h]

theorem compare_of_gt {x y : Byte} (f : Flags) (h : y.toNat < x.toNat) : f.compare x y = ⟨f.e, f.l, true⟩ := by
  have ne : x ≠ y := fun e => Nat.ne_of_gt h (congrArg _ e)
  rw [Flags.compare, if_neg ne, if_neg (Nat.lt_asymm h)]

/-! ### The obligations -/

/-- Settles O20: the comparison's three cases, and the register checks in the operands' order. -/
theorem cmpResult : Obligations.CmpResult := by
  unfold Obligations.CmpResult
  refine fun a b s => ⟨rfl, fun ha hb => ?_, raises_of_fst_badOperand s rfl, raises_of_snd_badOperand s rfl⟩
  rw [exec_cmp_of_lt s ha hb]
  refine ⟨fun eq => ?_, fun lt => ?_, fun gt => ?_⟩
  · rw [compare_of_eq _ eq]
    rfl
  · rw [compare_of_lt _ lt]
    rfl
  · rw [compare_of_gt _ gt]
    rfl

/-- Settles O18: the ALU's sum written to the first register, and the register checks in the operands' order. -/
theorem addResult : Obligations.AddResult := by
  unfold Obligations.AddResult
  exact fun a b s => ⟨rfl, execAlu_of_lt s aluRequest_add, raises_of_fst_badOperand s rfl,
    raises_of_snd_badOperand s rfl⟩

/-- Settles O19: as for ADD, with the ALU's product. -/
theorem mulResult : Obligations.MulResult := by
  unfold Obligations.MulResult
  exact fun a b s => ⟨rfl, execAlu_of_lt s aluRequest_mul, raises_of_fst_badOperand s rfl,
    raises_of_snd_badOperand s rfl⟩

end Sys2Proof.Machine
end

section
/-! PROOFS. The data and system instructions: the whole next state of HLT, LDI and PRN (42_data_and_system.md). -/

namespace Sys2Proof.Machine

open Sys2Proof.Claim

/-! ### Register operands -/

/-- The whole state where the operand checked first is above 7: the record names it and the opcode, and nothing else
changes (40_cycle.md R76). -/
theorem exec_fst_badOperand {i : Instr} {a : Byte} {others : List Byte} (s : State)
    (operands : i.regOperands = a :: others) (ha : 8 ≤ a.toNat) :
    exec i s = .next (faulted s (.registerIndex a ((encode i).headD 0))) := by
  refine exec_badOperand s ?_
  rw [operands, List.find?_cons_of_pos (by simpa using ha)]

theorem exec_ldi_of_lt {a : Byte} (b : Byte) (s : State) (ha : a.toNat < 8) :
    exec (.ldi a b) s = .next ((s.setReg ⟨a.toNat, ha⟩ b).advance 2) :=
  check_regOperand_of_lt s _ ha

theorem exec_prn_of_lt {a : Byte} (s : State) (ha : a.toNat < 8) :
    exec (.prn a) s = .next ((s.emit s.regs[a.toNat]).advance 1) :=
  check_regOperand_of_lt s _ ha

/-! ### HLT -/

theorem exec_hlt (s : State) : exec .hlt s = .next (s.halt.advance 0) := rfl

/-- A Running machine with HLT's one byte at pc executes HLT (42_data_and_system.md R87). -/
theorem step_of_hlt {s : State} (running : s.status = .running) (opcode : s.mem.read s.pc = .ok Opcode.hlt) :
    step s = .next (s.halt.advance 0) := by
  rw [← exec_hlt]
  refine step_of_encode running fun k hk => ?_
  obtain rfl : k = 0 := Nat.lt_one_iff.mp hk
  exact opcode

/-- A Halted machine has no step (40_cycle.md R69). -/
theorem step_ne_next_of_halted {s : State} (halted : s.status = .halted) (t : State) : step s ≠ .next t := by
  intro h
  have running : s.status = .running := noStepUnlessRunning s t h
  simp [halted] at running

/-! ### The obligations -/

/-- Settles O24: the byte 01 at pc is HLT's whole encoding, and the status it leaves is Halted. -/
theorem hltHalts : Obligations.HltHalts := by
  unfold Obligations.HltHalts
  exact ⟨rfl, fun s => ⟨exec_hlt s, fun running opcode => ⟨step_of_hlt running opcode, step_ne_next_of_halted rfl⟩⟩⟩

/-- Settles O25: only the first operand is checked as a register, and the second is written as it is. -/
theorem ldiResult : Obligations.LdiResult := by
  unfold Obligations.LdiResult
  exact fun a b s => ⟨rfl, exec_ldi_of_lt b s, raises_of_fst_badOperand s rfl⟩

/-- Settles O26: the operand's check comes before the output, so a fault leaves OUT as it was. -/
theorem prnResult : Obligations.PrnResult := by
  unfold Obligations.PrnResult
  exact fun a s => ⟨rfl, exec_prn_of_lt s, exec_fst_badOperand s rfl⟩

end Sys2Proof.Machine
end

section
/-! PROOFS. The stack: what the checks of a push and of a pop answer, and the whole next state of PUSH and POP
(43_stack.md). -/

namespace Sys2Proof.Machine

open Sys2Proof.Claim

/-! ### The operand that names SP -/

theorem operand_eq_spIndex_iff {a : Byte} (ha : a.toNat < 8) : (⟨a.toNat, ha⟩ : RegIdx) = Config.spIndex ↔ a = 7 :=
  Fin.ext_iff.trans (BitVec.toNat_inj (y := 7))

theorem ne_spIndex_of_lt {a : Byte} (h : a.toNat < 7) : a ≠ 7 := by
  rintro rfl
  exact absurd h (by decide)

/-- Reading the operand's register after SP was written: the new SP for register 7 (the decision D6). -/
theorem reg_operand_setSp {a : Byte} (s : State) (v : Byte) (ha : a.toNat < 8) :
    (s.setSp v).reg ⟨a.toNat, ha⟩ = if a = 7 then v else s.regs[a.toNat] := by
  simp only [reg_setSp, operand_eq_spIndex_iff]
  rfl

/-- SP after the operand's register was written: the value written for register 7 (the decision D6). -/
theorem sp_setReg_operand {a : Byte} (s : State) (v : Byte) (ha : a.toNat < 8) :
    (s.setReg ⟨a.toNat, ha⟩ v).sp = if a = 7 then v else s.sp := by
  simp only [State.sp, reg_setReg, eq_comm (a := Config.spIndex), operand_eq_spIndex_iff]

/-- SP's last write is the one that stays. -/
theorem setSp_setReg_spIndex (s : State) (v w : Byte) : (s.setReg Config.spIndex v).setSp w = s.setSp w :=
  congrArg (fun regs => { s with regs := regs }) (Vector.set_set ..)

/-- Undoing the change of register 7 leaves the other register's new value. -/
theorem set_spIndex_restores {r : Nat} (regs : Vector Byte 8) (x v : Byte) (h : r < 7) :
    ((regs.set 7 x).set r v).set 7 regs[7] = regs.set r v := by
  rw [Vector.set_comm _ _ (by omega), Vector.set_set, Vector.set_getElem_self]

/-! ### The checks of a push -/

theorem pushSlot_of_zero {s : State} (opcode : Byte) (zero : s.sp = 0) :
    pushSlot opcode s = .error (.stackOverflow 0 opcode) := by
  rw [pushSlot, if_pos zero, zero]

theorem pushSlot_of_outside {s : State} (opcode : Byte) (nonzero : s.sp ≠ 0)
    (outside : s.mem.size ≤ s.sp.toNat - 1) : pushSlot opcode s = .error (.memoryBounds (s.sp.toNat - 1)) := by
  rw [← toNat_sub_one nonzero] at outside ⊢
  simp only [pushSlot, if_neg nonzero, Memory.checkBounds_of_ge outside]

/-- A fault of the push's checks is the instruction's fault (43_stack.md R93). -/
theorem exec_of_pushSlot_error {i : Instr} {a : Byte} {s : State} {c : FaultCause} (pushes : i = .push a ∨ i = .call a)
    (ha : a.toNat < 8) (hs : pushSlot ((encode i).headD 0) s = .error c) : exec i s = .next (s.raise c) := by
  rcases pushes with rfl | rfl <;>
    exact (check_regOperand_of_lt s _ ha).trans (congrArg (s.check · _) hs)

/-! ### The checks of a pop -/

theorem popByte_of_spInit {s : State} (opcode : Byte) (empty : s.sp = Config.spInit) :
    popByte opcode s = .error (.stackUnderflow Config.spInit opcode) := by
  rw [popByte, if_pos empty, empty]

theorem popByte_of_ne_spInit {s : State} (opcode : Byte) (nonempty : s.sp ≠ Config.spInit) :
    popByte opcode s = s.mem.read s.sp.toNat :=
  if_neg nonempty

theorem checkIncrement_of_eq {x : Byte} (opcode : Byte) (s : State) (top : x = 0xFF) :
    checkIncrement opcode s x = .error (.stackUnderflow s.sp opcode) :=
  if_pos top

theorem checkIncrement_of_ne {x : Byte} (opcode : Byte) (s : State) (below : x ≠ 0xFF) :
    checkIncrement opcode s x = .ok () :=
  if_neg below

/-! ### PUSH and POP -/

section
variable {a : Byte} {s : State} (ha : a.toNat < 8)
include ha

/-- A PUSH whose checks pass (43_stack.md R94). -/
theorem exec_push_of_fits (nonzero : s.sp ≠ 0) (fits : s.sp.toNat - 1 < s.mem.size) :
    exec (.push a) s = .next (((s.setSp (s.sp - 1)).store (s.sp.toNat - 1)
      (if a = 7 then s.sp - 1 else s.regs[a.toNat])).advance 1) := by
  rw [← toNat_sub_one nonzero] at fits ⊢
  show s.check _ _ = _
  simp only [check_regOperand_of_lt s _ ha, pushSlot_of_fits _ nonzero fits, check_ok, reg_operand_setSp]

theorem exec_pop_of_popByte_error {c : FaultCause} (hb : popByte Opcode.pop s = .error c) :
    exec (.pop a) s = .next (s.raise c) :=
  (check_regOperand_of_lt s _ ha).trans (congrArg (s.check · _) hb)

/-- A POP that read its byte: the check of the increment is the last, and the increment follows the write of `x[a]`
(43_stack.md R95). -/
theorem exec_pop_of_popByte_ok {v : Byte} (hb : popByte Opcode.pop s = .ok v) :
    exec (.pop a) s = s.check (checkIncrement Opcode.pop s (if a = 7 then v else s.sp)) fun _ =>
      .next (((s.setReg ⟨a.toNat, ha⟩ v).setSp ((if a = 7 then v else s.sp) + 1)).advance 1) := by
  show s.check _ _ = _
  simp only [check_regOperand_of_lt s _ ha, hb, check_ok, operand_eq_spIndex_iff, sp_setReg_operand]

end

/-! ### The obligations -/

/-- Settles O28: the checks pass, and the store to canonical memory reads back at its own address only. -/
theorem pushResult : Obligations.PushResult := by
  unfold Obligations.PushResult
  intro a s ha wf nonzero fits
  exact ⟨_, exec_push_of_fits ha nonzero fits, rfl, Memory.store_wf _ wf fits, rfl,
    Memory.read_store_same _ wf fits, fun b other => s.mem.read_store_other _ other⟩

/-- Settles O29: the operand's check comes first, then the two checks of a push in their order. -/
theorem pushFaults : Obligations.PushFaults := by
  unfold Obligations.PushFaults
  intro a s
  refine ⟨exec_fst_badOperand s rfl, fun ha zero => ?_, fun ha nonzero outside => ?_⟩
  · exact exec_of_pushSlot_error (.inl rfl) ha (pushSlot_of_zero _ zero)
  · exact exec_of_pushSlot_error (.inl rfl) ha (pushSlot_of_outside _ nonzero outside)

/-- Settles O30: PUSH and CALL share the push's checks. -/
theorem pushOverflow : Obligations.PushOverflow := by
  unfold Obligations.PushOverflow
  intro i a s pushes ha
  refine ⟨fun zero => ?_, fun pos outside => ?_⟩
  · exact ⟨_, _, exec_of_pushSlot_error pushes ha (pushSlot_of_zero _ zero), rfl, _, _, rfl⟩
  · have nonzero : s.sp ≠ 0 := fun zero => absurd (congrArg BitVec.toNat zero) (Nat.ne_of_gt pos)
    exact ⟨_, _, exec_of_pushSlot_error pushes ha (pushSlot_of_outside _ nonzero outside), rfl, rfl⟩

/-- Settles O31: the checks pass; for register 7 the increment is of the popped byte, and its result is what stays. -/
theorem popResult : Obligations.PopResult := by
  unfold Obligations.PopResult
  intro a v s ha nonempty read
  have popped : popByte Opcode.pop s = .ok v := (popByte_of_ne_spInit _ nonempty).trans read
  rw [exec_pop_of_popByte_ok ha popped]
  refine ⟨fun notSp below => ?_, fun isSp below => ?_⟩
  · rw [if_neg notSp, checkIncrement_of_ne (x := s.sp) _ s below]
    rfl
  · subst isSp
    rw [if_pos rfl, checkIncrement_of_ne _ s below, check_ok]
    exact congrArg (fun u : State => Host.Outcome.next (u.advance 1)) (setSp_setReg_spIndex s v (v + 1))

/-- Settles O32: the operand's check comes first, then the sentinel, the read at SP and the increment. -/
theorem popFaults : Obligations.PopFaults := by
  unfold Obligations.PopFaults
  intro a s
  refine ⟨exec_fst_badOperand s rfl, fun ha empty => ?_, fun ha nonempty outside => ?_,
    fun v ha nonempty read top => ?_⟩
  · exact exec_pop_of_popByte_error ha (popByte_of_spInit _ empty)
  · exact exec_pop_of_popByte_error ha ((popByte_of_ne_spInit _ nonempty).trans (Memory.read_of_ge outside))
  · rw [exec_pop_of_popByte_ok ha ((popByte_of_ne_spInit _ nonempty).trans read)]
    exact congrArg (s.check · _) (checkIncrement_of_eq _ s top)

/-- Settles O33: the POP reads the byte that the PUSH stored, and its increment undoes the PUSH's decrement. -/
theorem pushThenPop : Obligations.PushThenPop := by
  unfold Obligations.PushThenPop
  intro r r2 s h h2 wf nonzero notLast fits
  have notSp : r ≠ 7 := ne_spIndex_of_lt h
  obtain ⟨t, pushed, left, -, -, stored, -⟩ := pushResult r s (Nat.lt_succ_of_lt h) wf nonzero fits
  have regs : t.regs = s.regs.set 7 (s.regs[7] - 1) := by rw [left]
  have pc : t.pc = s.pc + 2 := by rw [left]
  have status : t.status = s.status := by rw [left]
  have sp : t.regs[7] = s.regs[7] - 1 := by simp [regs]
  have nonempty : t.regs[7] ≠ 0xF4 := by
    rw [sp]
    bv_omega
  have below : t.regs[7] ≠ 0xFF := by
    rw [sp]
    bv_omega
  have read : t.mem.read t.regs[7].toNat = .ok s.regs[r.toNat] := by
    rw [sp, toNat_sub_one nonzero, stored, if_neg notSp]
  have popped := (popResult r2 _ t (Nat.lt_succ_of_lt h2) nonempty read).1 (ne_spIndex_of_lt h2) below
  refine ⟨t, _, pushed, popped, ?_, congrArg (· + 2) pc, status⟩
  simp only [sp, BitVec.sub_add_cancel]
  simp only [regs, set_spIndex_restores _ _ _ h2]

end Sys2Proof.Machine
end

section
/-! PROOFS. Control transfer: the whole next state of CALL, RET, JMP, JEQ and JNE (44_control_transfer.md). -/

namespace Sys2Proof.Machine

open Sys2Proof.Claim

/-! ### The cycle of a short instruction -/

/-- A Running machine with a one-byte encoding at pc executes it. -/
theorem step_of_encode_one {s : State} {i : Instr} {opcode : Byte} (running : s.status = .running)
    (encoded : encode i = [opcode]) (read : s.mem.read s.pc = .ok opcode) : step s = exec i s := by
  refine step_of_encode running ?_
  simp [encoded, read]

/-- A Running machine with a two-byte encoding at pc executes it. -/
theorem step_of_encode_two {s : State} {i : Instr} {opcode a : Byte} (running : s.status = .running)
    (encoded : encode i = [opcode, a]) (read : s.mem.read s.pc = .ok opcode)
    (operand : s.mem.read (s.pc + 1) = .ok a) : step s = exec i s := by
  refine step_of_encode running fun k hk => ?_
  simp only [encoded] at hk ⊢
  match k, hk with
  | 0, _ => exact read
  | 1, _ => exact operand

/-! ### CALL -/

theorem returnAddress_of_le {p : Nat} (fits : p + 2 ≤ 0xFF) : returnAddress p = .ok (BitVec.ofNat 8 (p + 2)) :=
  if_pos fits

theorem returnAddress_of_gt {p : Nat} (large : 0xFF < p + 2) : returnAddress p = .error (.memoryBounds (p + 2)) :=
  if_neg (Nat.not_le.mpr large)

/-- A CALL whose push has a slot: the check of the return address is the last, and the target is read after SP is
decremented (44_control_transfer.md R100). -/
theorem exec_call_of_slot {a : Byte} {s : State} (ha : a.toNat < 8) (nonzero : s.sp ≠ 0)
    (inside : s.sp.toNat - 1 < s.mem.size) :
    exec (.call a) s = s.check (returnAddress s.pc) fun back =>
      .next (((s.setSp (s.sp - 1)).store (s.sp.toNat - 1) back).setPc
        (if a = 7 then s.sp.toNat - 1 else s.regs[a.toNat].toNat)) := by
  rw [← toNat_sub_one nonzero] at inside ⊢
  show s.check _ _ = _
  simp only [check_regOperand_of_lt s _ ha, pushSlot_of_fits _ nonzero inside, check_ok, reg_operand_setSp,
    apply_ite BitVec.toNat]

/-! ### RET -/

theorem exec_ret_of_popByte_error {s : State} {c : FaultCause} (hb : popByte Opcode.ret s = .error c) :
    exec .ret s = .next (s.raise c) := by
  show s.check _ _ = _
  rw [hb, check_error]

/-- A RET that read its byte: the check of the increment is the last (44_control_transfer.md R101). -/
theorem exec_ret_of_popByte_ok {s : State} {v : Byte} (hb : popByte Opcode.ret s = .ok v) :
    exec .ret s = s.check (checkIncrement Opcode.ret s s.sp) fun _ =>
      .next ((s.setPc v.toNat).setSp (s.sp + 1)) := by
  show s.check _ _ = _
  rw [hb, check_ok]

/-! ### The obligations -/

/-- Settles O34: the checks pass, and the store to canonical memory reads back at its own address only. -/
theorem callResult : Obligations.CallResult := by
  unfold Obligations.CallResult
  intro a s ha wf nonzero inside fits
  have called := exec_call_of_slot ha nonzero inside
  rw [returnAddress_of_le fits, check_ok] at called
  exact ⟨_, called, rfl, Memory.store_wf _ wf inside, rfl, Memory.read_store_same _ wf inside,
    fun b other => s.mem.read_store_other _ other⟩

/-- Settles O35: the operand's check comes first, then the push's two, then the return address's. -/
theorem callFaults : Obligations.CallFaults := by
  unfold Obligations.CallFaults
  intro a s
  refine ⟨exec_fst_badOperand s rfl, fun ha zero => ?_, fun ha nonzero outside => ?_,
    fun ha nonzero inside large => ?_⟩
  · exact exec_of_pushSlot_error (.inr rfl) ha (pushSlot_of_zero _ zero)
  · exact exec_of_pushSlot_error (.inr rfl) ha (pushSlot_of_outside _ nonzero outside)
  · rw [exec_call_of_slot ha nonzero inside, returnAddress_of_gt large]
    rfl

/-- Settles O36: off the sentinel the byte at SP is popped, and below 0xFF the increment passes. -/
theorem retResult : Obligations.RetResult := by
  unfold Obligations.RetResult
  refine ⟨rfl, fun v s nonempty below read => ?_⟩
  rw [exec_ret_of_popByte_ok ((popByte_of_ne_spInit _ nonempty).trans read),
    checkIncrement_of_ne (x := s.sp) _ s below]
  rfl

/-- Settles O37: the sentinel comes first, then the read at SP, then the increment. -/
theorem retFaults : Obligations.RetFaults := by
  unfold Obligations.RetFaults
  intro s
  refine ⟨fun empty => ?_, fun nonempty outside => ?_, fun top inside => ?_⟩
  · exact exec_ret_of_popByte_error (popByte_of_spInit _ empty)
  · exact exec_ret_of_popByte_error ((popByte_of_ne_spInit _ nonempty).trans (Memory.read_of_ge outside))
  · have sp : s.sp = 0xFF := top
    have nonempty : s.sp ≠ Config.spInit := by rw [sp]; decide
    rw [exec_ret_of_popByte_ok ((popByte_of_ne_spInit _ nonempty).trans (Memory.read_of_lt inside)),
      checkIncrement_of_eq (x := s.sp) _ s sp, sp]
    rfl

/-- Settles O38: the RET's byte is not the slot, so it is still there to be fetched; it pops the return address that
the CALL stored, and its increment undoes the CALL's decrement. -/
theorem callThenRet : Obligations.CallThenRet := by
  unfold Obligations.CallThenRet
  intro a s h wf running opcode operand fits nonzero notLast inside retByte notSlot
  obtain ⟨t, called, left, -, -, stored, others⟩ := callResult a s (Nat.lt_succ_of_lt h) wf nonzero inside fits
  have regs : t.regs = s.regs.set 7 (s.regs[7] - 1) := by rw [left]
  have pc : t.pc = s.regs[a.toNat].toNat := by rw [left, if_neg (ne_spIndex_of_lt h)]
  have status : t.status = .running := by rw [left, running]
  have sp : t.regs[7] = s.regs[7] - 1 := by simp [regs]
  have nonempty : t.regs[7] ≠ 0xF4 := by
    rw [sp]
    bv_omega
  have below : t.regs[7] ≠ 0xFF := by
    rw [sp]
    bv_omega
  have fetched : t.mem.read t.pc = .ok 0x11 := by rw [pc, others _ notSlot, retByte]
  have read : t.mem.read t.regs[7].toNat = .ok (BitVec.ofNat 8 (s.pc + 2)) := by
    rw [sp, toNat_sub_one nonzero, stored]
  have returned := retResult.2 _ t nonempty below read
  refine ⟨t, _, (step_of_encode_two running rfl opcode operand).trans called,
    (step_of_encode_one status retResult.1 fetched).trans returned, ?_, ?_, status⟩
  · exact (BitVec.toNat_ofNat _ 8).trans (Nat.mod_eq_of_lt (Nat.lt_succ_of_le fits))
  · simp only [sp, BitVec.sub_add_cancel]
    rw [regs, Vector.set_set, Vector.set_getElem_self]

/-- Settles O39: JMP is the jump that is always taken. -/
theorem jmpResult : Obligations.JmpResult := by
  unfold Obligations.JmpResult
  intro a s
  refine ⟨rfl, fun ha => ?_, raises_of_fst_badOperand s rfl⟩
  have jumped : exec (.jmp a) s = .next { s with pc := s.regs[a.toNat].toNat } := execJump_of_lt true s ha
  refine ⟨jumped, fun toSelf => ?_⟩
  rw [jumped, toSelf]

/-- Settles O40: E decides between the target and the next instruction, after the operand's check. -/
theorem jeqResult : Obligations.JeqResult := by
  unfold Obligations.JeqResult
  refine fun a s => ⟨rfl, fun ha => ⟨fun eSet => ?_, fun eClear => ?_⟩, exec_fst_badOperand s rfl⟩
  · simp [exec_jeq_of_lt s ha, eSet]
  · simp [exec_jeq_of_lt s ha, eClear]

/-- Settles O41: as for JEQ, with the branch taken when E is clear. -/
theorem jneResult : Obligations.JneResult := by
  unfold Obligations.JneResult
  refine fun a s => ⟨rfl, fun ha => ⟨fun eClear => ?_, fun eSet => ?_⟩, exec_fst_badOperand s rfl⟩
  · simp [exec_jne_of_lt s ha, eClear]
  · simp [exec_jne_of_lt s ha, eSet]

end Sys2Proof.Machine
end

section
/-! PROOFS. The load: what it answers, and the memory it leaves (70_reset_and_hazards.md R122). -/

namespace Sys2Proof.Machine

open Sys2Proof.Claim

/-! ### What the loader answers -/

theorem load_of_fits {program : List Byte} {s : State} (fits : program.length ≤ s.mem.size) :
    load program s = .ok { s with mem := s.mem.place 0 program } := if_pos fits

theorem load_of_tooLong {program : List Byte} {s : State} (long : s.mem.size < program.length) :
    load program s = .error .tooLong := if_neg (Nat.not_le.mpr long)

/-- A text that does not parse is not loaded, whatever the machine. -/
theorem loadText_of_parseProgram_error {text : List Char} {e : LoadError} (s : State)
    (malformed : parseProgram text = .error e) : loadText text s = .error e := by
  simp only [loadText, malformed]

/-! ### The loaded memory -/

theorem load_mem_size {program : List Byte} {s t : State} (h : load program s = .ok t) : t.mem.size = s.mem.size := by
  obtain ⟨-, rfl⟩ := load_ok h
  exact Memory.place_size program s.mem 0

/-- A load leaves every address after the program as it was. -/
theorem read_load_above {program : List Byte} {s t : State} {k : Nat} (h : load program s = .ok t)
    (after : program.length ≤ k) : t.mem.read k = s.mem.read k := by
  obtain ⟨-, rfl⟩ := load_ok h
  exact Memory.read_place_above program s.mem 0 k (by simpa using after)

/-- Settles O17: the loader's test against the memory's size decides, and a load that answers wrote nothing after the
program, where reset left 0. -/
theorem loadPlacesProgram : Obligations.LoadPlacesProgram := by
  unfold Obligations.LoadPlacesProgram
  refine fun n program => ⟨fun fits => ?_, fun long => load_of_tooLong long,
    fun _ _ malformed => loadText_of_parseProgram_error _ malformed⟩
  have loaded := load_of_fits (s := State.resetWith n) fits
  refine ⟨_, loaded, load_mem_size loaded, read_load (resetWith_wf n) loaded, fun k after inside => ?_⟩
  exact (read_load_above loaded after).trans (read_resetWith inside)

end Sys2Proof.Machine
end
